-- ==== Sys2Proof/Word.lean ====
section
/-!
DEFINITION. The word types of the core and the one arithmetic helper its rules share (00_scope.md R6, R7).
-/

namespace Sys2Proof

/-- A stream byte or a buffer byte (R6). -/
abbrev Byte := BitVec 8

/-- A 32-bit unsigned context value: `sdr_size` and the pending run-test count (R6). -/
abbrev Word32 := BitVec 32

/-- `ceil8(n) = (n + 7) div 8`: the number of bytes that hold `n` bits (R7). -/
def ceil8 (n : Nat) : Nat := (n + 7) / 8

end Sys2Proof
end

