-- ==== Sys2Proof/Config.lean ====
section
/-!
DEFINITION. What an implementation fixes (the CFG interface, 00_scope.md R2 and R5) and the two free values of the
model, its oracles: the target's TDO answers and the bytes of an endless stream (60_exceptions.md R256).
-/

namespace Sys2Proof

/-- The 18 opcodes of 30_encoding.md R73, by name, in the order of the table. -/
inductive Opcode where
  | xcomplete | xtdomask | xsir | xsdr | xruntest | xrepeat
  | xsdrsize | xsdrtdo | xsdrb | xsdrc | xsdre | xsdrtdob
  | xsdrtdoc | xsdrtdoe | xstate | xendir | xenddr | xsir2
  deriving DecidableEq, Repr

/-- All opcodes, in the order of 30_encoding.md R73. -/
def Opcode.all : List Opcode :=
  [.xcomplete, .xtdomask, .xsir, .xsdr, .xruntest, .xrepeat,
   .xsdrsize, .xsdrtdo, .xsdrb, .xsdrc, .xsdre, .xsdrtdob,
   .xsdrtdoc, .xsdrtdoe, .xstate, .xendir, .xenddr, .xsir2]

/-- The parameter `OPCODE_MAP` (R5, R73): the byte value of each opcode. -/
structure OpcodeMap where
  xcomplete : Byte
  xtdomask : Byte
  xsir : Byte
  xsdr : Byte
  xruntest : Byte
  xrepeat : Byte
  xsdrsize : Byte
  xsdrtdo : Byte
  xsdrb : Byte
  xsdrc : Byte
  xsdre : Byte
  xsdrtdob : Byte
  xsdrtdoc : Byte
  xsdrtdoe : Byte
  xstate : Byte
  xendir : Byte
  xenddr : Byte
  xsir2 : Byte
  deriving DecidableEq, Repr

/-- The byte the map gives an opcode. -/
def OpcodeMap.byteOf (m : OpcodeMap) : Opcode → Byte
  | .xcomplete => m.xcomplete
  | .xtdomask => m.xtdomask
  | .xsir => m.xsir
  | .xsdr => m.xsdr
  | .xruntest => m.xruntest
  | .xrepeat => m.xrepeat
  | .xsdrsize => m.xsdrsize
  | .xsdrtdo => m.xsdrtdo
  | .xsdrb => m.xsdrb
  | .xsdrc => m.xsdrc
  | .xsdre => m.xsdre
  | .xsdrtdob => m.xsdrtdob
  | .xsdrtdoc => m.xsdrtdoc
  | .xsdrtdoe => m.xsdrtdoe
  | .xstate => m.xstate
  | .xendir => m.xendir
  | .xenddr => m.xenddr
  | .xsir2 => m.xsir2

/-- "It must keep the 18 values distinct" (R74, decision D23). -/
abbrev OpcodeMap.distinct (m : OpcodeMap) : Prop := (Opcode.all.map m.byteOf).Nodup

/-- The configuration of one core instance, fixed for its life (R2, R5, R272). -/
structure Params where
  /-- `MAX_TDI_BITS`: the maximum scan width. -/
  maxTdiBits : Nat
  /-- `MAX_COMPARE_BITS`: the capacity of each compare buffer in bits. -/
  maxCompareBits : Nat
  /-- `INIT_TDO_MASK`: every byte of `tdo_mask` at run start. -/
  initTdoMask : Byte
  /-- `OPCODE_MAP`. -/
  opcodes : OpcodeMap
  /-- `SETTLE_TIME`: the length of the settling delay. No rule depends on it (R5, R102; assumption log 10). -/
  settleTime : Nat
  deriving DecidableEq, Repr

/-- `TDI_BYTES = MAX_TDI_BITS / 8` (R5). -/
def Params.tdiBytes (p : Params) : Nat := p.maxTdiBits / 8

/-- `CMP_BYTES = MAX_COMPARE_BITS / 8` (R5). -/
def Params.cmpBytes (p : Params) : Nat := p.maxCompareBits / 8

/-- The constraints on the parameters (R5, R29, R74, decisions D2, D23): both capacities positive multiples of 8,
`MAX_COMPARE_BITS <= MAX_TDI_BITS`, `MAX_TDI_BITS >= 32`, 18 distinct opcode bytes. -/
abbrev Params.ok (p : Params) : Prop :=
  32 ≤ p.maxTdiBits ∧ p.maxTdiBits % 8 = 0 ∧ 0 < p.maxCompareBits ∧ p.maxCompareBits % 8 = 0 ∧
    p.maxCompareBits ≤ p.maxTdiBits ∧ p.opcodes.distinct

/-- `RESET_PULSES = 32` (R5, R104; 90_conflicts.md C8). -/
def resetPulses : Nat := 32

/-- FREE VALUE (R256, I7; assumption log 5): the TDO bit the target answers to the `n`-th pulse for which the
state lists no answer. It has no body, so nothing can be proved of its value. -/
opaque Config.freeTdo : Nat → Bool

/-- FREE VALUE (R256; assumption log 14): the byte at offset `a` of the endless stream `k`, fixed for the run because it
depends on nothing else (R63). It has no body, so what is proved holds for every infinite sequence of bytes. -/
opaque Config.endlessByte : Nat → Nat → Byte

end Sys2Proof
end

