-- ==== Sys2Proof/Syntax.lean ====
section
/-!
DEFINITION. The instruction set as syntax: one constructor per row of spec/opcode_table.json (30_encoding.md R71, R73),
with the operands its format gives it. A bit-vector operand `V(n)` is the list of its bytes in stream order, the most
significant byte first (R55, R78).
-/

namespace Sys2Proof

/-- One XSVF instruction with its operands (R71, R77, R78). -/
inductive Instr where
  /-- XCOMPLETE, format N (R224). -/
  | xcomplete
  /-- XTDOMASK V, format D: the comparison mask (R160). -/
  | xtdomask (mask : List Byte)
  /-- XSIR len, V, format I8 (R180). -/
  | xsir (len : Byte) (tdi : List Byte)
  /-- XSDR V, format D (R184). -/
  | xsdr (tdi : List Byte)
  /-- XRUNTEST w, format W (R163). -/
  | xruntest (count : Word32)
  /-- XREPEAT b, format B (R162). -/
  | xrepeat (count : Byte)
  /-- XSDRSIZE w, format W (R166). -/
  | xsdrsize (size : Word32)
  /-- XSDRTDO V, E, format DD (R186). -/
  | xsdrtdo (tdi tdo : List Byte)
  /-- XSDRB V, format D (R200). -/
  | xsdrb (tdi : List Byte)
  /-- XSDRC V, format D (R201). -/
  | xsdrc (tdi : List Byte)
  /-- XSDRE V, format D (R202). -/
  | xsdre (tdi : List Byte)
  /-- XSDRTDOB V, E, format DD (R206). -/
  | xsdrtdob (tdi tdo : List Byte)
  /-- XSDRTDOC V, E, format DD (R207). -/
  | xsdrtdoc (tdi tdo : List Byte)
  /-- XSDRTDOE V, E, format DD (R208). -/
  | xsdrtdoe (tdi tdo : List Byte)
  /-- XSTATE s, format B: a state id byte (R220). -/
  | xstate (s : Byte)
  /-- XENDIR b, format B: a boolean byte (R168). -/
  | xendir (flag : Byte)
  /-- XENDDR b, format B: a boolean byte (R169). -/
  | xenddr (flag : Byte)
  /-- XSIR2 len, V, format I16 (R182). -/
  | xsir2 (len : BitVec 16) (tdi : List Byte)
  deriving DecidableEq, Repr

/-- The opcode an instruction is encoded with (R73). -/
def Instr.opcode : Instr → Opcode
  | .xcomplete => .xcomplete
  | .xtdomask _ => .xtdomask
  | .xsir _ _ => .xsir
  | .xsdr _ => .xsdr
  | .xruntest _ => .xruntest
  | .xrepeat _ => .xrepeat
  | .xsdrsize _ => .xsdrsize
  | .xsdrtdo _ _ => .xsdrtdo
  | .xsdrb _ => .xsdrb
  | .xsdrc _ => .xsdrc
  | .xsdre _ => .xsdre
  | .xsdrtdob _ _ => .xsdrtdob
  | .xsdrtdoc _ _ => .xsdrtdoc
  | .xsdrtdoe _ _ => .xsdrtdoe
  | .xstate _ => .xstate
  | .xendir _ => .xendir
  | .xenddr _ => .xenddr
  | .xsir2 _ _ => .xsir2

end Sys2Proof
end

