-- ==== Sys2Proof/WellFormed.lean ====
section
/-!
DEFINITION. When an instruction term is one the byte stream can hold (30_encoding.md R71, R72, R76): its vector operands
have exactly the bytes their bit count asks for, at the `sdr_size` current when the instruction is read.
-/

namespace Sys2Proof

/-- The data bytes an XSIR or XSIR2 of `len` bits takes: `ceil8(len)`, or none when the length is above
`MAX_TDI_BITS`, because the run then ends right after the length bytes (44_xsvf_scan.md R181). -/
def irDataBytes (p : Params) (len : Nat) : Nat := if p.maxTdiBits < len then 0 else ceil8 len

/-- Every vector operand has the length its format gives it (R71). -/
def Instr.wellFormed (p : Params) (sdrSize : Word32) : Instr → Bool
  | .xcomplete => true
  | .xtdomask mask => mask.length == ceil8 sdrSize.toNat
  | .xsir len tdi => tdi.length == irDataBytes p len.toNat
  | .xsdr tdi => tdi.length == ceil8 sdrSize.toNat
  | .xruntest _ => true
  | .xrepeat _ => true
  | .xsdrsize _ => true
  | .xsdrtdo tdi tdo => tdi.length == ceil8 sdrSize.toNat && tdo.length == ceil8 sdrSize.toNat
  | .xsdrb tdi => tdi.length == ceil8 sdrSize.toNat
  | .xsdrc tdi => tdi.length == ceil8 sdrSize.toNat
  | .xsdre tdi => tdi.length == ceil8 sdrSize.toNat
  | .xsdrtdob tdi tdo => tdi.length == ceil8 sdrSize.toNat && tdo.length == ceil8 sdrSize.toNat
  | .xsdrtdoc tdi tdo => tdi.length == ceil8 sdrSize.toNat && tdo.length == ceil8 sdrSize.toNat
  | .xsdrtdoe tdi tdo => tdi.length == ceil8 sdrSize.toNat && tdo.length == ceil8 sdrSize.toNat
  | .xstate _ => true
  | .xendir _ => true
  | .xenddr _ => true
  | .xsir2 len tdi => tdi.length == irDataBytes p len.toNat

end Sys2Proof
end

