-- ==== Sys2Proof/Decode.lean ====
section
/-!
DEFINITION. The decoder, total on any bytes (30_encoding.md R70 to R77), the encoder written from the same formats, and
the default parameters of an instance (00_scope.md R5, 30_encoding.md R73, 92_eei_decisions.md D8, D32).
-/

namespace Sys2Proof

/-- The default `OPCODE_MAP` (R73). PRESUMED by the spec itself: the published XSVF byte values (I2; assumption
log 2). -/
def defaultOpcodes : OpcodeMap where
  xcomplete := 0x00
  xtdomask := 0x01
  xsir := 0x02
  xsdr := 0x03
  xruntest := 0x04
  xrepeat := 0x07
  xsdrsize := 0x08
  xsdrtdo := 0x09
  xsdrb := 0x0C
  xsdrc := 0x0D
  xsdre := 0x0E
  xsdrtdob := 0x0F
  xsdrtdoc := 0x10
  xsdrtdoe := 0x11
  xstate := 0x12
  xendir := 0x13
  xenddr := 0x14
  xsir2 := 0x15

/-- The parameters of the machine `State.reset` describes: the configuration of the spec's vectors (decisions D8,
D32). DESIGN CHOICE (assumption logs 1 and 10): every one of them is open in the spec. -/
def defaultParams : Params where
  maxTdiBits := 1024
  maxCompareBits := 1024
  initTdoMask := 0xFF
  opcodes := defaultOpcodes
  settleTime := 0

/-- What the decoder reads from the bytes at the cursor. The number counts the bytes taken, opcode byte included. -/
inductive Decoded where
  /-- A whole instruction. -/
  | instr (i : Instr) (taken : Nat)
  /-- The source ended inside a vector operand: the instruction with the operand bytes there were (R55, R249). -/
  | cutShort (i : Instr) (taken : Nat)
  /-- The source ended at the opcode byte or inside a fixed-size operand (R51, R247). -/
  | exhausted (taken : Nat)
  /-- A byte that is no opcode of the map (R75, R226). -/
  | unsupported (op : Byte)
  deriving DecidableEq, Repr

/-- Decoding compares the whole opcode byte with each entry of the map (R74). -/
def decodeOpcode (m : OpcodeMap) (op : Byte) : Option Opcode :=
  Opcode.all.find? fun o => m.byteOf o == op

/-- Format N. -/
def takeNothing (i : Instr) : Decoded := .instr i 1

/-- Format B: one operand byte. -/
def takeByte (mk : Byte → Instr) : List Byte → Decoded
  | b :: _ => .instr (mk b) 2
  | [] => .exhausted 1

/-- Format W: four operand bytes, big-endian (R54). -/
def takeWord (mk : Word32 → Instr) : List Byte → Decoded
  | w3 :: w2 :: w1 :: w0 :: _ => .instr (mk (w3 ++ w2 ++ w1 ++ w0)) 5
  | bs => .exhausted (1 + bs.length)

/-- One vector operand of `nb` bytes, after `used` bytes (formats D, I8, I16). -/
def takeVector (mk : List Byte → Instr) (nb used : Nat) (bs : List Byte) : Decoded :=
  if nb ≤ bs.length then .instr (mk (bs.take nb)) (used + nb)
  else .cutShort (mk bs) (used + bs.length)

/-- Two vector operands of `nb` bytes each, data then expected TDO (format DD). -/
def takeTwoVectors (mk : List Byte → List Byte → Instr) (nb : Nat) (bs : List Byte) : Decoded :=
  if 2 * nb ≤ bs.length then .instr (mk (bs.take nb) ((bs.drop nb).take nb)) (1 + 2 * nb)
  else .cutShort (mk (bs.take nb) (bs.drop nb)) (1 + bs.length)

/-- Format I8: a length byte, then the data (R180). -/
def takeIr8 (p : Params) : List Byte → Decoded
  | len :: bs => takeVector (.xsir len) (irDataBytes p len.toNat) 2 bs
  | [] => .exhausted 1

/-- Format I16: two length bytes, the high one first, then the data (R182). -/
def takeIr16 (p : Params) : List Byte → Decoded
  | hi :: lo :: bs => takeVector (.xsir2 (hi ++ lo)) (irDataBytes p (hi ++ lo).toNat) 3 bs
  | bs => .exhausted (1 + bs.length)

/-- The operands of each opcode, by its format (R71, R73). -/
def decodeOperands (p : Params) (sdrSize : Word32) (o : Opcode) (bs : List Byte) : Decoded :=
  match o with
  | .xcomplete => takeNothing .xcomplete
  | .xtdomask => takeVector .xtdomask (ceil8 sdrSize.toNat) 1 bs
  | .xsir => takeIr8 p bs
  | .xsdr => takeVector .xsdr (ceil8 sdrSize.toNat) 1 bs
  | .xruntest => takeWord .xruntest bs
  | .xrepeat => takeByte .xrepeat bs
  | .xsdrsize => takeWord .xsdrsize bs
  | .xsdrtdo => takeTwoVectors .xsdrtdo (ceil8 sdrSize.toNat) bs
  | .xsdrb => takeVector .xsdrb (ceil8 sdrSize.toNat) 1 bs
  | .xsdrc => takeVector .xsdrc (ceil8 sdrSize.toNat) 1 bs
  | .xsdre => takeVector .xsdre (ceil8 sdrSize.toNat) 1 bs
  | .xsdrtdob => takeTwoVectors .xsdrtdob (ceil8 sdrSize.toNat) bs
  | .xsdrtdoc => takeTwoVectors .xsdrtdoc (ceil8 sdrSize.toNat) bs
  | .xsdrtdoe => takeTwoVectors .xsdrtdoe (ceil8 sdrSize.toNat) bs
  | .xstate => takeByte .xstate bs
  | .xendir => takeByte .xendir bs
  | .xenddr => takeByte .xenddr bs
  | .xsir2 => takeIr16 p bs

/-- The decoder: the bytes at the cursor, read at the current `sdr_size` (R70, R74, R76). The bytes after the
instruction are left alone. -/
def decode (p : Params) (sdrSize : Word32) : List Byte → Decoded
  | [] => .exhausted 0
  | op :: bs =>
    match decodeOpcode p.opcodes op with
    | none => .unsupported op
    | some o => decodeOperands p sdrSize o bs

/-- The most bytes one instruction can take at this `sdr_size`, opcode byte included (R72, R181). -/
def longestInstr (p : Params) (sdrSize : Word32) : Nat :=
  max 5 (max (3 + ceil8 p.maxTdiBits) (1 + 2 * ceil8 sdrSize.toNat))

/-- Byte `k` of a value, byte 0 the least significant. -/
def byteAt (w k : Nat) : Byte := BitVec.ofNat 8 (w >>> (8 * k))

/-- A 32-bit operand as four bytes, the most significant first (R54). -/
def wordBytes (w : Word32) : List Byte :=
  [byteAt w.toNat 3, byteAt w.toNat 2, byteAt w.toNat 1, byteAt w.toNat 0]

/-- The operand bytes of an instruction in stream order (R71). -/
def operandBytes : Instr → List Byte
  | .xcomplete => []
  | .xtdomask mask => mask
  | .xsir len tdi => len :: tdi
  | .xsdr tdi => tdi
  | .xruntest count => wordBytes count
  | .xrepeat count => [count]
  | .xsdrsize size => wordBytes size
  | .xsdrtdo tdi tdo => tdi ++ tdo
  | .xsdrb tdi => tdi
  | .xsdrc tdi => tdi
  | .xsdre tdi => tdi
  | .xsdrtdob tdi tdo => tdi ++ tdo
  | .xsdrtdoc tdi tdo => tdi ++ tdo
  | .xsdrtdoe tdi tdo => tdi ++ tdo
  | .xstate s => [s]
  | .xendir flag => [flag]
  | .xenddr flag => [flag]
  | .xsir2 len tdi => byteAt len.toNat 1 :: byteAt len.toNat 0 :: tdi

/-- The encoder: the bytes of an instruction in stream order (R70, R71, R73). -/
def encode (p : Params) (i : Instr) : List Byte := p.opcodes.byteOf i.opcode :: operandBytes i

/-- The length in bytes of an instruction, from its format (the table of R72; for an XSIR or XSIR2 above
`MAX_TDI_BITS`, the bytes it takes before the run ends). -/
def instrLength (p : Params) (sdrSize : Word32) : Instr → Nat
  | .xcomplete => 1
  | .xrepeat _ | .xstate _ | .xendir _ | .xenddr _ => 2
  | .xruntest _ | .xsdrsize _ => 5
  | .xsir len _ => 2 + irDataBytes p len.toNat
  | .xsir2 len _ => 3 + irDataBytes p len.toNat
  | .xtdomask _ | .xsdr _ | .xsdrb _ | .xsdrc _ | .xsdre _ => 1 + ceil8 sdrSize.toNat
  | .xsdrtdo _ _ | .xsdrtdob _ _ | .xsdrtdoc _ _ | .xsdrtdoe _ _ => 1 + 2 * ceil8 sdrSize.toNat

/-- The bytes of an instruction numbered as spec/opcode_table.json numbers them: the first byte is bits 7..0 of `w`,
the next one the bits above, and every byte after `nbits` bits is zero, up to the longest instruction. -/
def tableBytes (p : Params) (sdrSize : Word32) (nbits w : Nat) : List Byte :=
  (List.range (nbits / 8)).map (byteAt w) ++ List.replicate (longestInstr p sdrSize) 0

/-- What the decoder reads from a row's word, under the default parameters and the `sdr_size` of run start (32). -/
def decodeTableWord (nbits w : Nat) : Option Instr :=
  match decode defaultParams 32 (tableBytes defaultParams 32 nbits w) with
  | .instr i _ => some i
  | .cutShort _ _ => none
  | .exhausted _ => none
  | .unsupported _ => none

end Sys2Proof
end

