-- ==== Sys2Proof/Machine/State.lean ====
section
/-!
DEFINITION. The machine's state as plain data: everything the spec gives the core (10_state.md R42), what the outside
holds for it (the byte source, the target's answers, the pending `Run()` calls), and the state after reset (R41).
-/

namespace Sys2Proof.Machine

/-- The 16 TAP states, in the order of their ids 0 to 15 (R20). -/
inductive TapState where
  | testLogicReset | runTest | selectDRScan | captureDR
  | shiftDR | exit1DR | pauseDR | exit2DR
  | updateDR | selectIRScan | captureIR | shiftIR
  | exit1IR | pauseIR | exit2IR | updateIR
  deriving DecidableEq, Repr

/-- One transaction on the JTAG pins (R39). -/
inductive PinEvent where
  /-- A full pulse: TDI and TMS driven, TDO sampled (R100). -/
  | full (tdi tms tdo : Bool)
  /-- A write-only pulse, with the TMS value the pins hold (R101). -/
  | fast (tdi tms : Bool)
  /-- The settling delay after a run-test pulse (R102). -/
  | settle
  deriving DecidableEq, Repr

/-- The four outcomes of a run (R38). -/
inductive RunOutcome where
  | success | fail | overflow | exhausted
  deriving DecidableEq, Repr

/-- The reasons of a model fault (R246). -/
inductive ModelFault where
  /-- `BAD_STATE_ID`: an XSTATE byte above 15 (R221). -/
  | badStateId
  /-- `QUICK_OUTSIDE_SHIFT`: a quick continue or end with the TAP not in ShiftDR (R204). -/
  | quickOutsideShift
  deriving DecidableEq, Repr

/-- What the byte source does past the bytes it holds: answer `EOS` (R51), block forever (R52), or go on without end
(R256). -/
inductive SourceTail where
  | eos
  | blocks
  /-- The stream is infinite: past the bytes held it goes on as the endless stream `k` (assumption log 14). -/
  | endless (k : Nat)
  deriving DecidableEq, Repr

/-- The byte stream: (offset, byte) pairs at strictly rising offsets (R50, R61). An offset that is not listed has
no byte, see `unlistedByte`. -/
abbrev Memory := List Host.Cell

/-- What an offset that is not listed reads as: no byte of the store; what the source answers there is its tail's
affair (R51, R52, R256). -/
def unlistedByte : Option Byte := none

/-- The canonical form of a stream: offsets strictly rising. (No listed byte can equal what an unlisted offset reads
as, because that is no byte.) -/
abbrev Memory.wf (m : Memory) : Prop := m.Pairwise fun x y => x.1 < y.1

/-- A `Run()` call the host has pending, with what it hands over (R257, R272): the stream at its origin, what the
source does past it, and the TDO bits the target will answer. -/
structure RunCall where
  stream : Memory
  tail : SourceTail
  tdo : List Bool
  deriving DecidableEq, Repr

/-- The TAP state and the JTAG pins (JP). -/
structure Pins where
  /-- `tap_state` (R20, R21). -/
  tapState : TapState
  /-- `tms_hold`, the TMS value the pins drive (R28). -/
  tmsHold : Bool
  /-- `trace`, the transactions of the run, oldest first (R39). -/
  trace : List PinEvent
  /-- The target's answers to come, next one first (R256). -/
  tdoIn : List Bool
  /-- The model's own counter of free TDO values taken (assumption log 5). -/
  freeDraws : Nat
  deriving DecidableEq, Repr

/-- The shift-register context (R29 to R32). -/
structure Context where
  /-- `sdr_size` (R29). -/
  sdrSize : Word32
  /-- `end_ir_state` (R30). -/
  endIrState : TapState
  /-- `end_dr_state` (R30). -/
  endDrState : TapState
  /-- `pending_runtest` (R31). -/
  pendingRuntest : Word32
  /-- `tdi_buf`, `TDI_BYTES` bytes (R32). -/
  tdiBuf : List Byte
  /-- `tdo_expected`, `CMP_BYTES` bytes (R32). -/
  tdoExpected : List Byte
  /-- `tdo_mask`, `CMP_BYTES` bytes (R32). -/
  tdoMask : List Byte
  /-- `tdo_captured`, `CMP_BYTES` bytes (R32). -/
  tdoCaptured : List Byte
  deriving DecidableEq, Repr

/-- The byte source (BS) and the byte cursor (R35, R50 to R53). -/
structure ByteSource where
  stream : Memory
  tail : SourceTail
  /-- `cursor`: the bytes taken since the run began (R35). -/
  cursor : Nat
  deriving DecidableEq, Repr

/-- How the run stands, and the calls waiting on CTL. -/
structure Control where
  /-- `outcome` (R38). -/
  outcome : Option RunOutcome
  /-- `faulted` (R40). -/
  faulted : Option ModelFault
  /-- The `Run()` calls the host has pending (R145, R257; assumption log 7). -/
  calls : List RunCall
  /-- Whether `Run()` has been called since power-up (R41, R257; assumption log 17). -/
  started : Bool
  deriving DecidableEq, Repr

/-- The whole machine (R42), its configuration (R5) included. -/
structure State where
  cfg : Params
  pins : Pins
  ctx : Context
  source : ByteSource
  ctl : Control
  deriving DecidableEq, Repr

/-- The reasons the model's step can stop the machine. -/
inductive Fault where
  /-- Raised by the step, or by an instruction still reading its operands, when the byte source neither gives a byte
  nor signals its end: the run is stuck, it has no step (R52, decision D26). Safe: nothing is claimed of such a run.
  (`exec` alone also raises it on a term with too few operand bytes before an endless stream, which no decoder gives:
  assumption log 15.) -/
  | sourceBlocked
  deriving DecidableEq, Repr

/-- The reasons the model can decline an instruction. -/
inductive Refusal where
  /-- An instruction without a meaning in `exec`; no arm uses it. Safe: the machine stops. -/
  | notModelled (mnemonic : String)
  deriving DecidableEq, Repr

/-- What a step answers. -/
abbrev StepResult := Host.Outcome State Fault Refusal

/-- The pins after the 32 pulses of `Reset()` (R41, R104). The target's answers to them are free values. -/
def Pins.reset : Pins where
  tapState := .testLogicReset
  tmsHold := true
  trace := (List.range resetPulses).map fun k => .full false true (Config.freeTdo k)
  tdoIn := []
  freeDraws := resetPulses

/-- The defaults of the shift-register context (R41, R140). -/
def Context.reset (p : Params) : Context where
  sdrSize := 32
  endIrState := .runTest
  endDrState := .runTest
  pendingRuntest := 0
  tdiBuf := List.replicate p.tdiBytes 0
  tdoExpected := List.replicate p.cmpBytes 0
  tdoMask := List.replicate p.cmpBytes p.initTdoMask
  tdoCaptured := List.replicate p.cmpBytes 0

/-- The machine after the prologue of `Run()`, which is the reset of this block (R41, R270), with nothing in the byte
source and no further call pending. -/
def State.reset : State where
  cfg := defaultParams
  pins := Pins.reset
  ctx := Context.reset defaultParams
  source := ⟨[], .eos, 0⟩
  ctl := ⟨none, none, [], true⟩

end Sys2Proof.Machine
end

