-- ==== Sys2Proof/Machine/Tap.lean ====
section
/-!
DEFINITION. The constant tables of the TAP: ids, `NEXT`, `ROUTE` and the distance table (10_state.md R20 to R27).
-/

namespace Sys2Proof.Machine

/-- The 16 states in id order (R20). -/
def TapState.all : List TapState :=
  [.testLogicReset, .runTest, .selectDRScan, .captureDR,
   .shiftDR, .exit1DR, .pauseDR, .exit2DR,
   .updateDR, .selectIRScan, .captureIR, .shiftIR,
   .exit1IR, .pauseIR, .exit2IR, .updateIR]

/-- The 4-bit id of a state (R20). -/
def TapState.id : TapState → BitVec 4
  | .testLogicReset => 0
  | .runTest => 1
  | .selectDRScan => 2
  | .captureDR => 3
  | .shiftDR => 4
  | .exit1DR => 5
  | .pauseDR => 6
  | .exit2DR => 7
  | .updateDR => 8
  | .selectIRScan => 9
  | .captureIR => 10
  | .shiftIR => 11
  | .exit1IR => 12
  | .pauseIR => 13
  | .exit2IR => 14
  | .updateIR => 15

/-- The state a byte names: values 16 to 255 name none (R77). -/
def TapState.ofByte (b : Byte) : Option TapState := TapState.all[b.toNat]?

/-- The two successors of a state, on TMS = 0 and on TMS = 1 (R22). PRESUMED by the spec itself: the IEEE 1149.1
graph (I1; assumption log 11). -/
def tapSuccessors : TapState → TapState × TapState
  | .testLogicReset => (.runTest, .testLogicReset)
  | .runTest => (.runTest, .selectDRScan)
  | .selectDRScan => (.captureDR, .selectIRScan)
  | .captureDR => (.shiftDR, .exit1DR)
  | .shiftDR => (.shiftDR, .exit1DR)
  | .exit1DR => (.pauseDR, .updateDR)
  | .pauseDR => (.pauseDR, .exit2DR)
  | .exit2DR => (.shiftDR, .updateDR)
  | .updateDR => (.runTest, .selectDRScan)
  | .selectIRScan => (.captureIR, .testLogicReset)
  | .captureIR => (.shiftIR, .exit1IR)
  | .shiftIR => (.shiftIR, .exit1IR)
  | .exit1IR => (.pauseIR, .updateIR)
  | .pauseIR => (.pauseIR, .exit2IR)
  | .exit2IR => (.shiftIR, .updateIR)
  | .updateIR => (.runTest, .selectDRScan)

/-- `NEXT(state, tms)` (R22). -/
def tapNext (s : TapState) (tms : Bool) : TapState :=
  if tms then (tapSuccessors s).2 else (tapSuccessors s).1

/-- `ROUTE(state)`: bit t is the TMS value that takes one step toward state t (R24). The diagonal bits are 0 and
never read (R25). -/
def tapRoute : TapState → BitVec 16
  | .testLogicReset => 0x0000
  | .runTest => 0xFFFD
  | .selectDRScan => 0xFE03
  | .captureDR => 0xFFE7
  | .shiftDR => 0xFFEF
  | .exit1DR => 0xFF0F
  | .pauseDR => 0xFFBF
  | .exit2DR => 0xFF0F
  | .updateDR => 0xFEFD
  | .selectIRScan => 0x01FF
  | .captureIR => 0xF3FF
  | .shiftIR => 0xF7FF
  | .exit1IR => 0x87FF
  | .pauseIR => 0xDFFF
  | .exit2IR => 0x87FF
  | .updateIR => 0x7FFD

/-- `ROUTE(s)[t]`. -/
def routeBit (s t : TapState) : Bool := (tapRoute s).getLsbD t.id.toNat

/-- The rows of the distance table, in id order (R27). -/
def distRows : List (List Nat) :=
  [[0, 1, 2, 3, 4, 4, 5, 6, 5, 3, 4, 5, 5, 6, 7, 6],
   [3, 0, 1, 2, 3, 3, 4, 5, 4, 2, 3, 4, 4, 5, 6, 5],
   [2, 3, 0, 1, 2, 2, 3, 4, 3, 1, 2, 3, 3, 4, 5, 4],
   [5, 3, 3, 0, 1, 1, 2, 3, 2, 4, 5, 6, 6, 7, 8, 7],
   [5, 3, 3, 4, 0, 1, 2, 3, 2, 4, 5, 6, 6, 7, 8, 7],
   [4, 2, 2, 3, 3, 0, 1, 2, 1, 3, 4, 5, 5, 6, 7, 6],
   [5, 3, 3, 4, 2, 3, 0, 1, 2, 4, 5, 6, 6, 7, 8, 7],
   [4, 2, 2, 3, 1, 2, 3, 0, 1, 3, 4, 5, 5, 6, 7, 6],
   [3, 1, 1, 2, 3, 3, 4, 5, 0, 2, 3, 4, 4, 5, 6, 5],
   [1, 2, 3, 4, 5, 5, 6, 7, 6, 0, 1, 2, 2, 3, 4, 3],
   [5, 3, 3, 4, 5, 5, 6, 7, 6, 4, 0, 1, 1, 2, 3, 2],
   [5, 3, 3, 4, 5, 5, 6, 7, 6, 4, 5, 0, 1, 2, 3, 2],
   [4, 2, 2, 3, 4, 4, 5, 6, 5, 3, 4, 3, 0, 1, 2, 1],
   [5, 3, 3, 4, 5, 5, 6, 7, 6, 4, 5, 2, 3, 0, 1, 2],
   [4, 2, 2, 3, 4, 4, 5, 6, 5, 3, 4, 1, 2, 3, 0, 1],
   [3, 1, 1, 2, 3, 3, 4, 5, 4, 2, 3, 4, 4, 5, 6, 0]]

/-- `dist(s, t)`: the length of the shortest path from s to t (R26, R27). -/
def tapDist (s t : TapState) : Nat := (distRows.getD s.id.toNat []).getD t.id.toNat 0

end Sys2Proof.Machine
end

