-- ==== Sys2Proof/Machine/Ops.lean ====
section
/-!
DEFINITION. The named operations of the core over its state: the byte stream and its cursor (20_memory.md R51 to R53),
the ends of a run (60_exceptions.md R240, R246), the pin primitives (40_tap.md R100 to R103), `Reset()` and
`GotoState()` (R104, R106), and the start of a run (42_interpreter.md R140, R145).
-/

namespace Sys2Proof.Machine

/-! ## The byte stream -/

/-- The byte the store has at an offset. -/
def Memory.read (m : Memory) (a : Nat) : Option Byte :=
  match m with
  | [] => unlistedByte
  | (k, b) :: rest => if k = a then some b else Memory.read rest a

/-- Put a byte at an offset, in the canonical order. Only the transport outside the core does this (R53, R63). -/
def Memory.write (m : Memory) (a : Nat) (b : Byte) : Memory :=
  match m with
  | [] => [(a, b)]
  | (k, c) :: rest =>
    if a < k then (a, b) :: (k, c) :: rest
    else if a = k then (a, b) :: rest
    else (k, c) :: Memory.write rest a b

/-- Put bytes at consecutive offsets from `a` on. -/
def Memory.writeBytes (m : Memory) (a : Nat) : List Byte → Memory
  | [] => m
  | b :: bs => Memory.write (Memory.writeBytes m (a + 1) bs) a b

/-- The byte past the store at an offset: only an infinite stream has one (R51, R52, R256). -/
def tailByte : SourceTail → Nat → Option Byte
  | .eos, _ => none
  | .blocks, _ => none
  | .endless k, a => some (Config.endlessByte k a)

/-- The byte the source has at an offset: of the store, else of its tail. -/
def sourceByte (src : ByteSource) (a : Nat) : Option Byte :=
  match Memory.read src.stream a with
  | some b => some b
  | none => tailByte src.tail a

/-- The bytes the source gives from offset `a` on, at most `n`, up to the first offset without a byte (R51). -/
def sourceBytes (src : ByteSource) (a : Nat) : Nat → List Byte
  | 0 => []
  | n + 1 =>
    match sourceByte src a with
    | none => []
    | some b => b :: sourceBytes src (a + 1) n

/-- The bytes at the cursor, as many as one instruction can take (R35, R51, R72). -/
def fetchWindow (s : State) : List Byte :=
  sourceBytes s.source s.source.cursor (longestInstr s.cfg s.ctx.sdrSize)

/-- Taking `n` bytes moves the cursor by `n` and does nothing else (R36, R51, R60). -/
def advance (n : Nat) (s : State) : State :=
  { s with source := { s.source with cursor := s.source.cursor + n } }

/-! ## Ending a run -/

/-- `finish(o)` (R240): the outcome is set, everything else is left as it was. -/
def finish (o : RunOutcome) (s : State) : State :=
  { s with ctl := { s.ctl with outcome := some o } }

/-- `fault(r)` (R246): the reason is set, no outcome is. -/
def raiseFault (r : ModelFault) (s : State) : State :=
  { s with ctl := { s.ctl with faulted := some r } }

/-- `NextByte()` where the source has no byte: `EOS` ends the run with `EXHAUSTED` (R51); a source that blocks
leaves the core with no step (R52). An infinite stream has every byte, so no step comes here with one. -/
def sourceEnd (s : State) : StepResult :=
  match s.source.tail with
  | .eos => .next (finish .exhausted s)
  | .blocks => .fault .sourceBlocked
  | .endless _ => .fault .sourceBlocked

/-- A run has ended exactly when `outcome` or `faulted` is set (R260). -/
def runEnded (s : State) : Bool := s.ctl.outcome.isSome || s.ctl.faulted.isSome

/-- A run is going on: it was started and has not ended (R41, R140, R260). -/
def inRun (s : State) : Bool := s.ctl.started && !runEnded s

/-- The 2-bit code of an outcome (R38). -/
def outcomeCode : RunOutcome → BitVec 2
  | .success => 0
  | .fail => 1
  | .overflow => 2
  | .exhausted => 3

/-- What `Run()` reports as a boolean (R38, R144). -/
def runReturnsTrue (s : State) : Bool := s.ctl.outcome == some .success

/-! ## Pin primitives -/

/-- The TDO bit the target answers to the next full pulse (R100, R256): the next listed answer, or a free value. -/
def tdoNow (p : Pins) : Bool :=
  match p.tdoIn with
  | b :: _ => b
  | [] => Config.freeTdo p.freeDraws

/-- Take that answer. -/
def takeTdo (p : Pins) : Pins :=
  match p.tdoIn with
  | _ :: rest => { p with tdoIn := rest }
  | [] => { p with freeDraws := p.freeDraws + 1 }

/-- One full pulse without state tracking, as inside `Reset()` (R100, R104, decision D33). -/
def drivePulse (tdi tms : Bool) (p : Pins) : Pins :=
  { takeTdo p with trace := p.trace ++ [.full tdi tms (tdoNow p)], tmsHold := tms }

/-- `ClockFull(tdi, tms)` (R100). The bit it returns is `tdoNow` of the pins before it. -/
def clockFull (tdi tms : Bool) (p : Pins) : Pins :=
  { drivePulse tdi tms p with tapState := tapNext p.tapState tms }

/-- `ClockFast(tdi)` (R101): TMS stays at the held value and TDO is not sampled. -/
def clockFast (tdi : Bool) (p : Pins) : Pins :=
  { p with trace := p.trace ++ [.fast tdi p.tmsHold], tapState := tapNext p.tapState p.tmsHold }

/-- `Settle()` (R102). -/
def settle (p : Pins) : Pins := { p with trace := p.trace ++ [.settle] }

/-! ## TAP operations -/

/-- `n` pulses with TDI = 0 (R103) and TMS = 1, untracked (R104). -/
def driveReset : Nat → Pins → Pins
  | 0, p => p
  | n + 1, p => driveReset n (drivePulse false true p)

/-- `Reset()` (R104): `RESET_PULSES` pulses, then TestLogicReset unconditionally. -/
def tapReset (p : Pins) : Pins :=
  { driveReset resetPulses p with tapState := .testLogicReset }

/-- The loop of `GotoState(t)`, at most `n` pulses, TDI = 0 (R103, R106). -/
def gotoLoop : Nat → TapState → Pins → Pins
  | 0, _, p => p
  | n + 1, t, p =>
    if p.tapState = t then p else gotoLoop n t (clockFull false (routeBit p.tapState t) p)

/-- `GotoState(t)` (R106). The loop never passes 8 pulses, the diameter of the graph (R26, R107). -/
def gotoState (t : TapState) (p : Pins) : Pins := gotoLoop 8 t p

/-- The same, on the whole machine. -/
def navigate (t : TapState) (s : State) : State := { s with pins := gotoState t s.pins }

/-! ## The start of a run -/

/-- The prologue of `Run()` (R140), on a stream and a target the host hands over, the byte source at its origin
(R145). The configuration stays, whatever the last run left does not. -/
def startRun (c : RunCall) (s : State) : State where
  cfg := s.cfg
  pins := tapReset { s.pins with trace := [], tdoIn := c.tdo }
  ctx := Context.reset s.cfg
  source := ⟨c.stream, c.tail, 0⟩
  ctl := ⟨none, none, s.ctl.calls, true⟩

/-- A machine at power-up (the power-up column of R41): the cursor at 0, no outcome, no fault, an empty trace, no run
started. Every other item is unspecified there: it is whatever it is in `s`, which may be any state. -/
def powerUp (s : State) : State where
  cfg := s.cfg
  pins := { s.pins with trace := [] }
  ctx := s.ctx
  source := { s.source with cursor := 0 }
  ctl := ⟨none, none, s.ctl.calls, false⟩

/-- Outside a run, after power-up or after a run's end, the core is idle (R143, R259, R260) until the host calls `Run()`
(R145, R257). -/
def betweenRuns (s : State) : State :=
  match s.ctl.calls with
  | [] => s
  | c :: rest => startRun c { s with ctl := { s.ctl with calls := rest } }

end Sys2Proof.Machine
end

