-- ==== Sys2Proof/Machine/Operands.lean ====
section
/-!
DEFINITION. Operand forms: filling a buffer from a vector operand (20_memory.md R55), reading and writing single bits of
a buffer (00_scope.md R8), booleans and state ids (30_encoding.md R77), and the reading of the vector operands of an
instruction before it acts (42_interpreter.md R142).
-/

namespace Sys2Proof.Machine

/-- `ReadVector` on `nb` bytes: the operand bytes go to positions `nb - 1` down to 0; a byte for a position at or
beyond `cap` is dropped; when the operand is cut short the rest of the buffer keeps its values (R55). -/
def fillVector (cap : Nat) : Nat → List Byte → List Byte → List Byte
  | 0, _, buf => buf
  | _ + 1, [], buf => buf
  | k + 1, b :: bs, buf => fillVector cap k bs (if k < cap then buf.set k b else buf)

/-- Bit `j` of the value in a buffer: `buf[j div 8][j mod 8]` (R8). -/
def bufBit (buf : List Byte) (j : Nat) : Bool := (buf.getD (j / 8) 0).getLsbD (j % 8)

/-- A byte with bit `i` replaced. -/
def putBit (x : Byte) (i : Nat) (b : Bool) : Byte :=
  if b then x ||| BitVec.twoPow 8 i else x &&& ~~~(BitVec.twoPow 8 i)

/-- Bit `j` of a buffer replaced, where its byte lies below `cap`; else nothing (R121, R129). -/
def setBufBit (cap : Nat) (buf : List Byte) (j : Nat) (b : Bool) : List Byte :=
  if j / 8 < cap then buf.set (j / 8) (putBit (buf.getD (j / 8) 0) (j % 8) b) else buf

/-- The first `k` bytes of a buffer cleared (R121, decision D13). -/
def clearBytes : Nat → List Byte → List Byte
  | 0, buf => buf
  | _ + 1, [] => []
  | k + 1, _ :: bs => 0 :: clearBytes k bs

/-- A 1-byte boolean is true when nonzero (R77). -/
def byteTrue (b : Byte) : Bool := b != 0

/-- `ReadVector(n, tdi_buf, TDI_BYTES)`. -/
def readTdi (n : Nat) (v : List Byte) (s : State) : State :=
  { s with ctx := { s.ctx with tdiBuf := fillVector s.cfg.tdiBytes (ceil8 n) v s.ctx.tdiBuf } }

/-- `ReadVector(n, tdo_expected, CMP_BYTES)`. -/
def readExpected (n : Nat) (v : List Byte) (s : State) : State :=
  { s with ctx := { s.ctx with tdoExpected := fillVector s.cfg.cmpBytes (ceil8 n) v s.ctx.tdoExpected } }

/-- `ReadVector(n, tdo_mask, CMP_BYTES)`. -/
def readMask (n : Nat) (v : List Byte) (s : State) : State :=
  { s with ctx := { s.ctx with tdoMask := fillVector s.cfg.cmpBytes (ceil8 n) v s.ctx.tdoMask } }

/-- Act once a vector operand of `n` bits is wholly read; where the stream ended inside it, the run ends there, with
no condition checked and no pin driven (R142, R247, R249). -/
def whenWhole (n : Nat) (v : List Byte) (act : State → StepResult) (s : State) : StepResult :=
  if ceil8 n ≤ v.length then act s else sourceEnd s

/-- The operand of a TDI-data instruction of `n` bits, then the action (R142). -/
def withTdi (n : Nat) (tdi : List Byte) (act : State → StepResult) (s : State) : StepResult :=
  whenWhole n tdi act (readTdi n tdi s)

/-- Both operands of format DD at the current `sdr_size`, data then expected TDO, then the action (R71, R142). -/
def withTdiAndExpected (tdi tdo : List Byte) (act : State → StepResult) (s : State) : StepResult :=
  withTdi s.ctx.sdrSize.toNat tdi
    (fun r => whenWhole s.ctx.sdrSize.toNat tdo act (readExpected s.ctx.sdrSize.toNat tdo r)) s

end Sys2Proof.Machine
end

