-- ==== Sys2Proof/Machine/ContextOps.lean ====
section
/-!
DEFINITION. The context-setting opcodes (43_xsvf_context.md R160 to R169). None of them drives a pin.
-/

namespace Sys2Proof.Machine

/-- XTDOMASK (R160): loads the compare mask at the current `sdr_size`. -/
def execXtdomask (mask : List Byte) (s : State) : StepResult :=
  whenWhole s.ctx.sdrSize.toNat mask .next (readMask s.ctx.sdrSize.toNat mask s)

/-- XREPEAT (R162): the count is read and discarded. -/
def execXrepeat (_count : Byte) (s : State) : StepResult := .next s

/-- XRUNTEST (R163): sets the pending run-test count. -/
def execXruntest (count : Word32) (s : State) : StepResult :=
  .next { s with ctx := { s.ctx with pendingRuntest := count } }

/-- XSDRSIZE (R166): above `MAX_TDI_BITS` the run ends with `OVERFLOW` and `sdr_size` is not written. -/
def execXsdrsize (size : Word32) (s : State) : StepResult :=
  if s.cfg.maxTdiBits < size.toNat then .next (finish .overflow s)
  else .next { s with ctx := { s.ctx with sdrSize := size } }

/-- XENDIR (R168): PauseIR if nonzero, else RunTest. -/
def execXendir (flag : Byte) (s : State) : StepResult :=
  .next { s with ctx := { s.ctx with endIrState := if byteTrue flag then .pauseIR else .runTest } }

/-- XENDDR (R169): PauseDR if nonzero, else RunTest. -/
def execXenddr (flag : Byte) (s : State) : StepResult :=
  .next { s with ctx := { s.ctx with endDrState := if byteTrue flag then .pauseDR else .runTest } }

end Sys2Proof.Machine
end

