-- ==== Sys2Proof/Machine/ControlOps.lean ====
section
/-!
DEFINITION. The control opcodes (46_xsvf_control.md R220 to R227).
-/

namespace Sys2Proof.Machine

/-- XCOMPLETE (R224): the run ends with `SUCCESS`; no pin moves. -/
def execXcomplete (s : State) : StepResult := .next (finish .success s)

/-- XSTATE (R220, R221): a direct move to the named state; a byte that names none is the model fault
`BAD_STATE_ID`, with no pulse driven. -/
def execXstate (b : Byte) (s : State) : StepResult :=
  match TapState.ofByte b with
  | some t => .next (navigate t s)
  | none => .next (raiseFault .badStateId s)

end Sys2Proof.Machine
end

