-- ==== Sys2Proof/Machine/Flags.lean ====
section
/-!
DEFINITION. The core's only flag, `matched` (10_state.md R34): the masked bytewise compare of the captured TDO with the
expected TDO (41_shift.md R123, R129).
-/

namespace Sys2Proof.Machine

/-- Byte `k` of a buffer. Every position a rule reads lies inside the buffer. -/
def byteOfBuf (buf : List Byte) (k : Nat) : Byte := buf.getD k 0

/-- `Compare(nb)`: over the positions below `min(nb, CMP_BYTES)`, both sides masked (R123). -/
def compareBytes (nb cap : Nat) (captured mask expected : List Byte) : Bool :=
  (List.range (min nb cap)).all fun k =>
    (byteOfBuf captured k &&& byteOfBuf mask k) == (byteOfBuf expected k &&& byteOfBuf mask k)

/-- The flag `matched` after a checked shift of `n` bits with `compare = 1` (R34, R121, R123). -/
def matched (n : Nat) (s : State) : Bool :=
  compareBytes (ceil8 n) s.cfg.cmpBytes s.ctx.tdoCaptured s.ctx.tdoMask s.ctx.tdoExpected

end Sys2Proof.Machine
end

