-- ==== Sys2Proof/Machine/Shift.lean ====
section
/-!
DEFINITION. The bit-shift engine (41_shift.md R120 to R129) and the post-scan step (42_interpreter.md R146).
-/

namespace Sys2Proof.Machine

/-- Bit `j` of a checked shift: one full pulse, its TDO bit captured below the compare bound (R121, R129). -/
def shiftBit (tms : Bool) (j : Nat) (s : State) : State :=
  { s with
    pins := clockFull (bufBit s.ctx.tdiBuf j) tms s.pins
    ctx := { s.ctx with
      tdoCaptured := setBufBit s.cfg.cmpBytes s.ctx.tdoCaptured j (tdoNow s.pins) } }

/-- The captured bytes a shift of `n` bits will write are cleared first (R121, decision D13). -/
def clearCaptured (n : Nat) (s : State) : State :=
  { s with ctx := { s.ctx with
    tdoCaptured := clearBytes (min (ceil8 n) s.cfg.cmpBytes) s.ctx.tdoCaptured } }

/-- `ShiftChecked(n, compare, raise_exit)` (R121 to R125): every bit is shifted, least significant first; the last
one carries TMS = `exit`. The flag it returns is `matched n` of the state after it. -/
def shiftChecked (n : Nat) (exit : Bool) (s : State) : State :=
  (List.range n).foldl (fun r j => shiftBit (exit && j + 1 == n) j r) (clearCaptured n s)

/-- Bit `j` of a fast shift of `n` bits (R126): a write-only pulse, but for the last bit, which is a full pulse with
TMS = `exit`, its TDO bit discarded. -/
def fastBit (n : Nat) (exit : Bool) (buf : List Byte) (j : Nat) (p : Pins) : Pins :=
  if j + 1 < n then clockFast (bufBit buf j) p else clockFull (bufBit buf j) exit p

/-- `ShiftFast(n, raise_exit)` (R126). -/
def shiftFast (n : Nat) (exit : Bool) (s : State) : State :=
  { s with pins := (List.range n).foldl (fun p j => fastBit n exit s.ctx.tdiBuf j p) s.pins }

/-- The run-test cycles: `n` pulses with TDI = 0 and TMS = 0, each followed by `Settle()` (R146). -/
def runTestCycles : Nat → Pins → Pins
  | 0, p => p
  | n + 1, p => runTestCycles n (settle (clockFull false false p))

/-- `PostScan(end_state)` (R146): the pending cycles in RunTest, used up (and the TAP left there, R147); with no
cycle pending, the end state. -/
def postScan (endState : TapState) (s : State) : State :=
  if s.ctx.pendingRuntest = 0 then navigate endState s
  else
    { s with
      pins := runTestCycles s.ctx.pendingRuntest.toNat (gotoState .runTest s.pins)
      ctx := { s.ctx with pendingRuntest := 0 } }

end Sys2Proof.Machine
end

