-- ==== Sys2Proof/Machine/ScanOps.lean ====
section
/-!
DEFINITION. The scan opcodes (44_xsvf_scan.md R180 to R187).
-/

namespace Sys2Proof.Machine

/-- The instruction scan XSIR and XSIR2 share (R180 to R183): the length check comes before any data byte and any
pin; nothing is compared. -/
def irScan (len : Nat) (tdi : List Byte) (s : State) : StepResult :=
  if s.cfg.maxTdiBits < len then .next (finish .overflow s)
  else withTdi len tdi
    (fun r => .next (postScan r.ctx.endIrState (shiftChecked len true (navigate .shiftIR r)))) s

/-- XSIR (R180). -/
def execXsir (len : Byte) (tdi : List Byte) (s : State) : StepResult := irScan len.toNat tdi s

/-- XSIR2 (R182). -/
def execXsir2 (len : BitVec 16) (tdi : List Byte) (s : State) : StepResult := irScan len.toNat tdi s

/-- XSDR (R184): a checked shift without compare. -/
def execXsdr (tdi : List Byte) (s : State) : StepResult :=
  withTdi s.ctx.sdrSize.toNat tdi
    (fun r =>
      .next (postScan r.ctx.endDrState (shiftChecked r.ctx.sdrSize.toNat true (navigate .shiftDR r)))) s

/-- What XSDRTDO does once its shift is over (R186, R187): a mismatch ends the run there. -/
def afterCompare (n : Nat) (onMatch : State → State) (s : State) : State :=
  if matched n s then onMatch s else finish .fail s

/-- XSDRTDO (R186): as XSDR, with the compare. -/
def execXsdrtdo (tdi tdo : List Byte) (s : State) : StepResult :=
  withTdiAndExpected tdi tdo
    (fun r =>
      .next (afterCompare r.ctx.sdrSize.toNat (postScan r.ctx.endDrState)
        (shiftChecked r.ctx.sdrSize.toNat true (navigate .shiftDR r)))) s

end Sys2Proof.Machine
end

