-- ==== Sys2Proof/Machine/QuickOps.lean ====
section
/-!
DEFINITION. The quick DR scan opcodes (45_xsvf_quick.md R200 to R209). None of them runs `PostScan` (R205).
-/

namespace Sys2Proof.Machine

/-- A continue or an end shifts in the TAP state it finds, which must be ShiftDR (R204). -/
def inShiftDR (act : State → State) (s : State) : State :=
  if s.pins.tapState = .shiftDR then act s else raiseFault .quickOutsideShift s

/-- XSDRB (R200): enter ShiftDR and shift, staying there. -/
def execXsdrb (tdi : List Byte) (s : State) : StepResult :=
  withTdi s.ctx.sdrSize.toNat tdi
    (fun r => .next (shiftFast r.ctx.sdrSize.toNat false (navigate .shiftDR r))) s

/-- XSDRC (R201): shift more bits, staying in ShiftDR. -/
def execXsdrc (tdi : List Byte) (s : State) : StepResult :=
  withTdi s.ctx.sdrSize.toNat tdi
    (fun r => .next (inShiftDR (fun q => shiftFast q.ctx.sdrSize.toNat false q) r)) s

/-- XSDRE (R202): shift the last bits, exit, and go to `end_dr_state`. -/
def execXsdre (tdi : List Byte) (s : State) : StepResult :=
  withTdi s.ctx.sdrSize.toNat tdi
    (fun r => .next
      (inShiftDR (fun q => navigate q.ctx.endDrState (shiftFast q.ctx.sdrSize.toNat true q)) r)) s

/-- XSDRTDOB (R206): enter ShiftDR, shift and compare, staying there. -/
def execXsdrtdob (tdi tdo : List Byte) (s : State) : StepResult :=
  withTdiAndExpected tdi tdo
    (fun r => .next
      (afterCompare r.ctx.sdrSize.toNat id
        (shiftChecked r.ctx.sdrSize.toNat false (navigate .shiftDR r)))) s

/-- XSDRTDOC (R207): shift and compare, staying in ShiftDR. -/
def execXsdrtdoc (tdi tdo : List Byte) (s : State) : StepResult :=
  withTdiAndExpected tdi tdo
    (fun r => .next
      (inShiftDR
        (fun q => afterCompare q.ctx.sdrSize.toNat id (shiftChecked q.ctx.sdrSize.toNat false q)) r)) s

/-- XSDRTDOE (R208): shift, exit and compare, then go to `end_dr_state`. -/
def execXsdrtdoe (tdi tdo : List Byte) (s : State) : StepResult :=
  withTdiAndExpected tdi tdo
    (fun r => .next
      (inShiftDR
        (fun q => afterCompare q.ctx.sdrSize.toNat (navigate q.ctx.endDrState)
          (shiftChecked q.ctx.sdrSize.toNat true q)) r)) s

end Sys2Proof.Machine
end

