-- ==== Sys2Proof/Machine/Dispatch.lean ====
section
/-!
DEFINITION. One arm per instruction (42_interpreter.md R141).
-/

namespace Sys2Proof.Machine

/-- The meaning of a decoded instruction, its bytes already taken from the stream. -/
def exec (i : Instr) (s : State) : Host.Outcome State Fault Refusal :=
  match i with
  | .xcomplete => Sys2Proof.Machine.execXcomplete s
  | .xtdomask mask => Sys2Proof.Machine.execXtdomask mask s
  | .xsir len tdi => Sys2Proof.Machine.execXsir len tdi s
  | .xsdr tdi => Sys2Proof.Machine.execXsdr tdi s
  | .xruntest count => Sys2Proof.Machine.execXruntest count s
  | .xrepeat count => Sys2Proof.Machine.execXrepeat count s
  | .xsdrsize size => Sys2Proof.Machine.execXsdrsize size s
  | .xsdrtdo tdi tdo => Sys2Proof.Machine.execXsdrtdo tdi tdo s
  | .xsdrb tdi => Sys2Proof.Machine.execXsdrb tdi s
  | .xsdrc tdi => Sys2Proof.Machine.execXsdrc tdi s
  | .xsdre tdi => Sys2Proof.Machine.execXsdre tdi s
  | .xsdrtdob tdi tdo => Sys2Proof.Machine.execXsdrtdob tdi tdo s
  | .xsdrtdoc tdi tdo => Sys2Proof.Machine.execXsdrtdoc tdi tdo s
  | .xsdrtdoe tdi tdo => Sys2Proof.Machine.execXsdrtdoe tdi tdo s
  | .xstate b => Sys2Proof.Machine.execXstate b s
  | .xendir flag => Sys2Proof.Machine.execXendir flag s
  | .xenddr flag => Sys2Proof.Machine.execXenddr flag s
  | .xsir2 len tdi => Sys2Proof.Machine.execXsir2 len tdi s

end Sys2Proof.Machine
end

