-- ==== Sys2Proof/Machine/Fetch.lean ====
section
/-!
DEFINITION. Fetching, decoding and running one instruction (42_interpreter.md R141), for any meaning of a decoded
instruction, and placing an instruction where the next fetch reads it.
-/

namespace Sys2Proof.Machine

/-- `Step()` (R141): outside a run nothing is read or driven (R143, R259) until the host calls `Run()`; in one the
instruction at the cursor is taken from the stream and run. A byte that is no opcode ends the run with `FAIL` after
that byte alone (R226). -/
def stepWith (run : Instr → State → StepResult) (s : State) : StepResult :=
  if inRun s then
    match decode s.cfg s.ctx.sdrSize (fetchWindow s) with
    | .instr i n => run i (advance n s)
    | .cutShort i n => run i (advance n s)
    | .exhausted n => sourceEnd (advance n s)
    | .unsupported _ => .next (finish .fail (advance 1 s))
  else .next (betweenRuns s)

/-- The state with an instruction's bytes at the cursor, inside a run (assumption log 13). -/
def placeInstr (s : State) (nbits w : Nat) : State :=
  { s with
    source := { s.source with
      stream := Memory.writeBytes s.source.stream s.source.cursor
        (tableBytes s.cfg s.ctx.sdrSize nbits w) }
    ctl := { s.ctl with outcome := none, faulted := none, started := true } }

end Sys2Proof.Machine
end

