-- ==== Sys2Proof/Machine/Step.lean ====
section
/-!
DEFINITION. One step of the machine (42_interpreter.md R141), and an instruction placed where the next step fetches.
-/

namespace Sys2Proof.Machine

/-- One step: one instruction of a run, or one moment between runs. -/
def step (s : State) : Host.Outcome State Fault Refusal := stepWith exec s

/-- `s` with the instruction whose bits are `w` where the next step fetches. -/
def State.withFetchWord (s : State) (nbits w : Nat) : State := placeInstr s nbits w

end Sys2Proof.Machine
end

