-- ==== Sys2Proof/Safety.lean ====
section
/-!
DEFINITION. The terms claims are made in: what the target sees of a run (10_state.md R39), the pulses the spec gives each
operation, the invariant of the machine, and a successful run (60_exceptions.md R260).
-/

namespace Sys2Proof.Machine

/-! ## What the target sees -/

/-- The (TDI, TMS) pair a transaction puts on the wire; `Settle` drives no edge (R100 to R102). -/
def drivenBy : PinEvent → Option (Bool × Bool)
  | .full tdi tms _ => some (tdi, tms)
  | .fast tdi tms => some (tdi, tms)
  | .settle => none

/-- The (TDI, TMS) pairs of a trace, one a pulse. -/
def drivenPins (tr : List PinEvent) : List (Bool × Bool) := tr.filterMap drivenBy

/-- The TDO bit a transaction samples; a fast pulse samples none (R101). -/
def sampledBy : PinEvent → Option Bool
  | .full _ _ tdo => some tdo
  | .fast _ _ => none
  | .settle => none

/-- The TDO bits sampled along a trace. -/
def sampledTdo (tr : List PinEvent) : List Bool := tr.filterMap sampledBy

/-- A transaction without the target's answer: which primitive was called, with what (R39). -/
inductive PinAction where
  | full (tdi tms : Bool)
  | fast (tdi tms : Bool)
  | settle
  deriving DecidableEq, Repr

/-- What the core did in a transaction. -/
def actionBy : PinEvent → PinAction
  | .full tdi tms _ => .full tdi tms
  | .fast tdi tms => .fast tdi tms
  | .settle => .settle

/-- What the core did along a trace: all of it but the sampled bits. -/
def actions (tr : List PinEvent) : List PinAction := tr.map actionBy

/-- Where a TAP that starts in `start` is after the pulses of a trace (R22). -/
def tapAfter (start : TapState) (tr : List PinEvent) : TapState :=
  (drivenPins tr).foldl (fun a p => tapNext a p.2) start

/-! ## The pulses of each operation -/

/-- The TMS values of `n` steps from `a` along `ROUTE` toward `t` (R26). -/
def routeTms : Nat → TapState → TapState → List Bool
  | 0, _, _ => []
  | n + 1, a, t => routeBit a t :: routeTms n (tapNext a (routeBit a t)) t

/-- The pulses of `GotoState(t)` from `a`: `dist(a, t)` of them, TDI = 0 (R103, R106). -/
def navPins (a t : TapState) : List (Bool × Bool) :=
  (routeTms (tapDist a t) a t).map fun tms => (false, tms)

/-- The pulses of a shift of `n` bits, least significant first, TMS = `exit` on the last (R121, R126). -/
def shiftPins (n : Nat) (exit : Bool) (bit : Nat → Bool) : List (Bool × Bool) :=
  (List.range n).map fun j => (bit j, exit && j + 1 == n)

/-- Bit `j` of the value a vector operand spells, its bytes most significant first (R8, R55). -/
def vectorBit (v : List Byte) (j : Nat) : Bool := (v.reverse.getD (j / 8) 0).getLsbD (j % 8)

/-- The pulses of `PostScan(e)` from `a` with a count pending (R146). -/
def postScanPins (a e : TapState) (count : Nat) : List (Bool × Bool) :=
  if count = 0 then navPins a e else navPins a .runTest ++ List.replicate count (false, false)

/-- Pulses that are all full, in order. -/
def fullPulses (l : List (Bool × Bool)) : List PinAction := l.map fun p => .full p.1 p.2

/-- A fast shift of `n` bits with TMS held at 0: every bit but the last a fast pulse, the last a full one with TMS =
`exit` (R126, decision D20). -/
def fastShiftActions (n : Nat) (exit : Bool) (bit : Nat → Bool) : List PinAction :=
  if n = 0 then []
  else ((List.range (n - 1)).map fun j => .fast (bit j) false) ++ [.full (bit (n - 1)) exit]

/-- The actions of `PostScan(e)` from `a`: each run-test pulse is followed by `Settle` (R146, decision D19). -/
def postScanActions (a e : TapState) (count : Nat) : List PinAction :=
  if count = 0 then fullPulses (navPins a e)
  else fullPulses (navPins a .runTest) ++ (List.replicate count [.full false false, .settle]).flatten

/-- How many bits `PostScan(e)` samples, one a full pulse (R100, R146). -/
def postScanSamples (a e : TapState) (count : Nat) : Nat :=
  if count = 0 then tapDist a e else tapDist a .runTest + count

/-- Where `PostScan(e)` leaves the TAP (R146, R147). -/
def postScanState (e : TapState) (count : Nat) : TapState := if count = 0 then e else .runTest

/-- Where a shift of `n` bits with exit leaves the TAP: a shift of no bits does not exit (R124, R128). -/
def afterExit (n : Nat) (shift exit1 : TapState) : TapState := if n = 0 then shift else exit1

/-- The scan width in bits. -/
def scanBits (s : State) : Nat := s.ctx.sdrSize.toNat

/-! ## Buffers -/

/-- What `ReadVector` leaves (R55): the positions the operand has a byte for hold it, in reverse of stream order,
the others keep what they held; positions at or beyond the capacity do not exist. -/
def VectorRead (v old new : List Byte) : Prop :=
  new.length = old.length ∧
    ∀ k < new.length, new.getD k 0 = if k < v.length then v.reverse.getD k 0 else old.getD k 0

/-- What a checked shift of `n` bits leaves in `tdo_captured` when the target answered `bits` (R121, R129, D13):
below the bound the answers, padding bits 0, the bytes above the scan as they were. -/
def Captured (n : Nat) (bits : List Bool) (old new : List Byte) : Prop :=
  new.length = old.length ∧
    ∀ j, j / 8 < new.length →
      bufBit new j =
        if j / 8 < ceil8 n then decide (j < n) && bits.getD j false else bufBit old j

/-- The answers of the target to the `n` pulses a scan from `s` drives once it has reached `shift`. -/
def scanAnswers (s t : State) (shift : TapState) (n : Nat) : List Bool :=
  ((sampledTdo t.pins.trace).drop
    ((sampledTdo s.pins.trace).length + tapDist s.pins.tapState shift)).take n

/-- The compare of R123 on the buffers of `s`: every byte position below the scan and below the compare bound. -/
def ComparesEqual (n : Nat) (s : State) : Prop :=
  ∀ k < min (ceil8 n) s.cfg.cmpBytes,
    byteOfBuf s.ctx.tdoCaptured k &&& byteOfBuf s.ctx.tdoMask k =
      byteOfBuf s.ctx.tdoExpected k &&& byteOfBuf s.ctx.tdoMask k

/-! ## Frames -/

/-- Configuration, byte source and run control as they were. -/
def SamePlatform (s t : State) : Prop := t.cfg = s.cfg ∧ t.source = s.source ∧ t.ctl = s.ctl

/-! ## The invariant -/

/-- What holds of the machine at every moment of a run (R5, R29, R30, R32, R204, R260). -/
structure Inv (s : State) : Prop where
  /-- The configuration meets its constraints (R5, D2, D23). -/
  cfgOk : s.cfg.ok
  /-- `sdr_size` is at most `MAX_TDI_BITS` (R29). -/
  sdrSizeFits : s.ctx.sdrSize.toNat ≤ s.cfg.maxTdiBits
  /-- Each buffer has its capacity (R32). -/
  tdiBufSize : s.ctx.tdiBuf.length = s.cfg.tdiBytes
  tdoExpectedSize : s.ctx.tdoExpected.length = s.cfg.cmpBytes
  tdoMaskSize : s.ctx.tdoMask.length = s.cfg.cmpBytes
  tdoCapturedSize : s.ctx.tdoCaptured.length = s.cfg.cmpBytes
  /-- The only end states ever written (R30). -/
  endIr : s.ctx.endIrState = .runTest ∨ s.ctx.endIrState = .pauseIR
  endDr : s.ctx.endDrState = .runTest ∨ s.ctx.endDrState = .pauseDR
  /-- A shift state is entered and kept only on TMS = 0 (R23, R204). -/
  shiftHold : s.pins.tapState = .shiftDR ∨ s.pins.tapState = .shiftIR → s.pins.tmsHold = false
  /-- A faulted run has no outcome (R246). -/
  oneEnd : s.ctl.outcome = none ∨ s.ctl.faulted = none
  /-- Only a run that was started has ended (R41). -/
  endedStarted : runEnded s = true → s.ctl.started = true
  /-- The stream, and every stream the host has waiting, is in canonical form. -/
  streamWf : Memory.wf s.source.stream
  callsWf : ∀ c ∈ s.ctl.calls, Memory.wf c.stream

/-- The tracked TAP state is where the pulses driven so far bring a TAP from ANY state, and the TMS latch holds the
TMS value of the last pulse (R20, R21, R28, R104). -/
def TapTracked (s : State) : Prop :=
  (∀ start, tapAfter start s.pins.trace = s.pins.tapState) ∧
    (drivenPins s.pins.trace).getLast?.map Prod.snd = some s.pins.tmsHold

/-- A successful run (R260). -/
def RunSucceeded (s : State) : Prop := s.ctl.outcome = some .success ∧ s.ctl.faulted = none

/-- The instruction is one of the six that change the context only and drive no pin (43_xsvf_context.md). -/
def contextOnly : Instr → Bool
  | .xtdomask _ | .xrepeat _ | .xruntest _ | .xsdrsize _ | .xendir _ | .xenddr _ => true
  | .xcomplete | .xsir _ _ | .xsdr _ | .xsdrtdo _ _ | .xsdrb _ | .xsdrc _ | .xsdre _ | .xsdrtdob _ _
  | .xsdrtdoc _ _ | .xsdrtdoe _ _ | .xstate _ | .xsir2 _ _ => false

/-- The instruction runs `PostScan` (R146). -/
def runsPostScan : Instr → Bool
  | .xsir _ _ | .xsir2 _ _ | .xsdr _ | .xsdrtdo _ _ => true
  | .xcomplete | .xtdomask _ | .xruntest _ | .xrepeat _ | .xsdrsize _ | .xsdrb _ | .xsdrc _ | .xsdre _
  | .xsdrtdob _ _ | .xsdrtdoc _ _ | .xsdrtdoe _ _ | .xstate _ | .xendir _ | .xenddr _ => false

/-- The instruction compares (R186, R206 to R208). -/
def compares : Instr → Bool
  | .xsdrtdo _ _ | .xsdrtdob _ _ | .xsdrtdoc _ _ | .xsdrtdoe _ _ => true
  | .xcomplete | .xtdomask _ | .xsir _ _ | .xsdr _ | .xruntest _ | .xrepeat _ | .xsdrsize _ | .xsdrb _
  | .xsdrc _ | .xsdre _ | .xstate _ | .xendir _ | .xenddr _ | .xsir2 _ _ => false

/-- The instruction shifts in the TAP state it finds, a quick continue or end (R204). -/
def needsShiftDR : Instr → Bool
  | .xsdrc _ | .xsdre _ | .xsdrtdoc _ _ | .xsdrtdoe _ _ => true
  | .xcomplete | .xtdomask _ | .xsir _ _ | .xsdr _ | .xruntest _ | .xrepeat _ | .xsdrsize _ | .xsdrtdo _ _
  | .xsdrb _ | .xsdrtdob _ _ | .xstate _ | .xendir _ | .xenddr _ | .xsir2 _ _ => false

/-- The instruction asks for more bits than `MAX_TDI_BITS` (R166, R181). -/
def tooLong (p : Params) : Instr → Bool
  | .xsdrsize size => decide (p.maxTdiBits < size.toNat)
  | .xsir len _ => decide (p.maxTdiBits < len.toNat)
  | .xsir2 len _ => decide (p.maxTdiBits < len.toNat)
  | .xcomplete | .xtdomask _ | .xsdr _ | .xruntest _ | .xrepeat _ | .xsdrtdo _ _ | .xsdrb _ | .xsdrc _
  | .xsdre _ | .xsdrtdob _ _ | .xsdrtdoc _ _ | .xsdrtdoe _ _ | .xstate _ | .xendir _ | .xenddr _ => false

/-- The instruction is an XSTATE whose byte names no state (R221). -/
def badStateByte : Instr → Bool
  | .xstate b => decide (15 < b.toNat)
  | .xcomplete | .xtdomask _ | .xsir _ _ | .xsdr _ | .xruntest _ | .xrepeat _ | .xsdrsize _ | .xsdrtdo _ _
  | .xsdrb _ | .xsdrc _ | .xsdre _ | .xsdrtdob _ _ | .xsdrtdoc _ _ | .xsdrtdoe _ _ | .xendir _ | .xenddr _
  | .xsir2 _ _ => false

end Sys2Proof.Machine
end

