-- ==== Sys2Proof/Certificates/Slice0/Obligations.lean ====
section
/-!
DEFINITION. The statements for the provers. Each docstring names the rules of spec/ the statement rests on and, where a
clause is a decision or an inference the spec marks as its own, or a choice of the model, says so.
-/

open Sys2Proof Sys2Proof.Machine

/-! ## Encoding and fetching -/

/-- Words written out from the formats of R71 and the bytes of R73; under that map exactly the bytes R75 lists are
unsupported (the map is general knowledge of the spec, log entry 2). -/
def Obligations.SampleWordsDecodeAsTheSpecEncodesThem : Prop :=
  decode defaultParams 16 [0x00] = .instr .xcomplete 1 ∧
  decode defaultParams 16 [0x01, 0x0F, 0xF0, 0xAA] = .instr (.xtdomask [0x0F, 0xF0]) 3 ∧
  decode defaultParams 16 [0x02, 0x0C, 0x0A, 0xBC] = .instr (.xsir 12 [0x0A, 0xBC]) 4 ∧
  decode defaultParams 16 [0x04, 0x00, 0x00, 0x01, 0x00] = .instr (.xruntest 256) 5 ∧
  decode defaultParams 16 [0x08, 0x00, 0x00, 0x10, 0x00] = .instr (.xsdrsize 4096) 5 ∧
  decode defaultParams 16 [0x09, 0x00, 0x01, 0xFF, 0x00] = .instr (.xsdrtdo [0x00, 0x01] [0xFF, 0x00]) 5 ∧
  decode defaultParams 16 [0x12, 0x06] = .instr (.xstate 6) 2 ∧
  decode defaultParams 16 [0x15, 0x01, 0x02] = .cutShort (.xsir2 258 []) 3 ∧
  decode defaultParams 16 [0x04, 0x00, 0x00] = .exhausted 3 ∧
  decode defaultParams 16 [0x16, 0x41] = .unsupported 0x16 ∧
  ∀ b : Byte, decodeOpcode defaultOpcodes b = none ↔
    b = 0x05 ∨ b = 0x06 ∨ b = 0x0A ∨ b = 0x0B ∨ 0x16 ≤ b.toNat

/-- Every well-formed instruction, at every operand value, under every opcode map with distinct bytes, decodes back
from its bytes, whatever follows them (R70, R71, R73, R74, R77). -/
def Obligations.EncodedInstructionDecodesBackToItself : Prop :=
  ∀ (p : Params) (sdrSize : Word32) (i : Instr) (rest : List Byte), p.opcodes.distinct →
    i.wellFormed p sdrSize = true →
    decode p sdrSize (encode p i ++ rest) = .instr i (instrLength p sdrSize i)

/-- The other direction: a whole instruction the decoder answers is well formed, is encoded by exactly the bytes it
was read from, and takes the length R72 gives its format. -/
def Obligations.DecodedInstructionIsTheOneItsBytesEncode : Prop :=
  ∀ (p : Params) (sdrSize : Word32) (bytes : List Byte) (i : Instr) (n : Nat),
    decode p sdrSize bytes = .instr i n →
      i.wellFormed p sdrSize = true ∧ encode p i = bytes.take n ∧ n = instrLength p sdrSize i ∧ n ≤ bytes.length

/-- R54: four-byte operands are big-endian: the first byte read is the most significant. So is the first of the two
length bytes of XSIR2, whether its data is whole or cut short: that order is the spec's own decision D30 (R182; log
entry 11). -/
def Obligations.IntegerOperandsAreBigEndian : Prop :=
  ∀ (p : Params) (sdrSize : Word32) (b3 b2 b1 b0 : Byte) (rest : List Byte), p.opcodes.distinct →
    (∃ w : Word32, decode p sdrSize (p.opcodes.xruntest :: b3 :: b2 :: b1 :: b0 :: rest) = .instr (.xruntest w) 5 ∧
      w.toNat = b3.toNat * 2 ^ 24 + b2.toNat * 2 ^ 16 + b1.toNat * 2 ^ 8 + b0.toNat) ∧
    (∃ w : Word32, decode p sdrSize (p.opcodes.xsdrsize :: b3 :: b2 :: b1 :: b0 :: rest) = .instr (.xsdrsize w) 5 ∧
      w.toNat = b3.toNat * 2 ^ 24 + b2.toNat * 2 ^ 16 + b1.toNat * 2 ^ 8 + b0.toNat) ∧
    (∃ (len : BitVec 16) (tdi : List Byte) (n : Nat), len.toNat = b1.toNat * 2 ^ 8 + b0.toNat ∧
      (decode p sdrSize (p.opcodes.xsir2 :: b1 :: b0 :: rest) = .instr (.xsir2 len tdi) n ∨
        decode p sdrSize (p.opcodes.xsir2 :: b1 :: b0 :: rest) = .cutShort (.xsir2 len tdi) n))

/-- R141: in a run, when the bytes at the cursor decode to a whole instruction, the step is `exec` of it, on the state
whose cursor has moved past its bytes (R36). -/
def Obligations.StepRunsTheDecodedInstruction : Prop :=
  ∀ (s : State) (i : Instr) (n : Nat), inRun s = true →
    decode s.cfg s.ctx.sdrSize (fetchWindow s) = .instr i n → step s = exec i (advance n s)

/-- The same from the stream itself (R70): where the stream holds, from the cursor on, the opcode byte of a well-formed
instruction and its operand bytes in order, the next step of the run executes it, whatever the stream holds after it,
and the cursor it leaves for the next opcode byte is right after its last byte. -/
def Obligations.StepRunsTheInstructionTheStreamHolds : Prop :=
  ∀ (s : State) (i : Instr), inRun s = true → s.cfg.opcodes.distinct →
    i.wellFormed s.cfg s.ctx.sdrSize = true →
    sourceByte s.source s.source.cursor = some (s.cfg.opcodes.byteOf i.opcode) →
    (∀ k < (operandBytes i).length,
      sourceByte s.source (s.source.cursor + 1 + k) = (operandBytes i)[k]?) →
    step s = exec i (advance (1 + (operandBytes i).length) s) ∧
    ∀ t, step s = .next t → t.source.cursor = s.source.cursor + 1 + (operandBytes i).length

/-- R36, R72: an instruction that is whole in the stream moves the cursor by its length, and nothing else of the byte
source changes. -/
def Obligations.StepMovesTheCursorByTheInstructionLength : Prop :=
  ∀ (s t : State) (i : Instr) (n : Nat), inRun s = true →
    decode s.cfg s.ctx.sdrSize (fetchWindow s) = .instr i n → step s = .next t →
    t.source = { s.source with cursor := s.source.cursor + instrLength s.cfg s.ctx.sdrSize i }

/-- A byte at the cursor that is not in the opcode map ends the run with `FAIL` (R75, R226); that only its one byte is
taken is the spec's decision D25. -/
def Obligations.UnsupportedOpcodeFailsTheRunAfterItsOneByte : Prop :=
  ∀ (s : State) (b : Byte), inRun s = true →
    sourceByte s.source s.source.cursor = some b → decodeOpcode s.cfg.opcodes b = none →
    step s = .next
      { s with
        source := { s.source with cursor := s.source.cursor + 1 }
        ctl := { s.ctl with outcome := some .fail } }

/-- R51, R247, R249: a source that signals its end at the opcode or inside an operand ends the run with `EXHAUSTED`
once every byte there was is taken; no pin is driven, and `pending_runtest`, `sdr_size` and the end states are as they
were. (`EOS` and `EXHAUSTED` are the spec's decision D11, the order of the checks its decision D28.) -/
def Obligations.SourceEndingInAnInstructionExhaustsTheRun : Prop :=
  ∀ (s : State) (n : Nat), inRun s = true → s.source.tail = .eos →
    (decode s.cfg s.ctx.sdrSize (fetchWindow s) = .exhausted n ∨
      ∃ i, decode s.cfg s.ctx.sdrSize (fetchWindow s) = .cutShort i n) →
    n = (fetchWindow s).length ∧
    ∃ t, step s = .next t ∧ t.ctl = { s.ctl with outcome := some .exhausted } ∧ t.pins = s.pins ∧
      t.cfg = s.cfg ∧ t.source = { s.source with cursor := s.source.cursor + n } ∧
      t.ctx = { s.ctx with
        tdiBuf := t.ctx.tdiBuf, tdoExpected := t.ctx.tdoExpected, tdoMask := t.ctx.tdoMask }

/-- R52 (decision D26): a source that blocks where the core needs a byte it does not have leaves the core with no step.
The stop `sourceBlocked` is the model's name for it (log entry 4). It is the only stop of a step: with a source that does
not block, or with bytes at the cursor that are a whole instruction or no opcode (R75), every run has a next state, and on
an infinite stream (R256) a run never ends with `EXHAUSTED`. That the machine also answers a step outside a run is the
model's choice (log entry 7). -/
def Obligations.SourceThatBlocksLeavesNoStep : Prop :=
  (∀ (s : State) (n : Nat), inRun s = true → s.source.tail = .blocks →
    (decode s.cfg s.ctx.sdrSize (fetchWindow s) = .exhausted n ∨
      ∃ i, decode s.cfg s.ctx.sdrSize (fetchWindow s) = .cutShort i n) →
    step s = .fault .sourceBlocked) ∧
  (∀ s : State, (inRun s = true → s.source.tail ≠ .blocks) → ∃ t, step s = .next t) ∧
  (∀ s : State, inRun s = true →
    ((∃ i n, decode s.cfg s.ctx.sdrSize (fetchWindow s) = .instr i n) ∨
      ∃ b, decode s.cfg s.ctx.sdrSize (fetchWindow s) = .unsupported b) →
    ∃ t, step s = .next t) ∧
  (∀ (s : State) (k : Nat), inRun s = true → s.source.tail = .endless k →
    ∃ t, step s = .next t ∧ t.ctl.outcome ≠ some .exhausted)

/-- `ReadVector` (R55), an operand cut short included: operand byte `m` goes to position `nb - 1 - m`, a byte for a
position at or beyond the capacity is dropped (decision D14), every other position keeps its value. -/
def Obligations.ReadVectorFillsDownwardFromTheTopPosition : Prop :=
  ∀ (cap nb : Nat) (v buf : List Byte),
    (fillVector cap nb v buf).length = buf.length ∧
    ∀ k < buf.length, (fillVector cap nb v buf).getD k 0 =
      if k < nb ∧ k < cap ∧ nb - 1 - k < v.length then v.getD (nb - 1 - k) 0 else buf.getD k 0

/-! ## The TAP -/

/-- R23 (the graph is the spec's general knowledge, log entry 11): the shift states are entered only on TMS = 0 and
only from the named states, TMS = 1 leaves them to the post-exit states, and five TMS = 1 pulses reach TestLogicReset
from anywhere. -/
def Obligations.TransitionTableHasTheListedProperties : Prop :=
  (∀ a b, tapNext a b = .shiftDR → b = false ∧ (a = .captureDR ∨ a = .shiftDR ∨ a = .exit2DR)) ∧
  (∀ a b, tapNext a b = .shiftIR → b = false ∧ (a = .captureIR ∨ a = .shiftIR ∨ a = .exit2IR)) ∧
  tapNext .shiftDR true = .exit1DR ∧ tapNext .shiftIR true = .exit1IR ∧
  (∀ a b, tapNext a b = a ↔
    (a = .testLogicReset ∧ b = true) ∨
    ((a = .runTest ∨ a = .shiftDR ∨ a = .pauseDR ∨ a = .shiftIR ∨ a = .pauseIR) ∧ b = false)) ∧
  (∀ a, [true, true, true, true, true].foldl tapNext a = .testLogicReset)

/-- R26, R27: following `ROUTE` reaches the target in exactly `dist` steps, each step lowers the distance by one, and
no distance passes 8 (computed by the spec from its graph; 90_conflicts.md C1). -/
def Obligations.RouteReachesEveryTargetInDistSteps : Prop :=
  ∀ a t : TapState,
    (routeTms (tapDist a t) a t).foldl tapNext a = t ∧ tapDist a t ≤ 8 ∧
    (tapDist a t = 0 ↔ a = t) ∧
    (a ≠ t → tapDist (tapNext a (routeBit a t)) t + 1 = tapDist a t)

/-- R24, R26: `dist` is the SHORTEST distance: no sequence of TMS values that leads from `a` to `t` is shorter. -/
def Obligations.NoTmsSequenceIsShorterThanTheRoute : Prop :=
  ∀ (tms : List Bool) (a t : TapState), tms.foldl tapNext a = t → tapDist a t ≤ tms.length

/-- R106, R107: from any state `GotoState(t)` ends in `t`, after exactly `dist` full pulses along the shortest path,
each with TDI = 0 (decision D9), and with none when it is there already. -/
def Obligations.GotoStateDrivesTheShortestPath : Prop :=
  ∀ (t : TapState) (p : Pins),
    (gotoState t p).tapState = t ∧
    drivenPins (gotoState t p).trace = drivenPins p.trace ++ navPins p.tapState t ∧
    (gotoState t p).trace.length = p.trace.length + tapDist p.tapState t ∧
    (sampledTdo (gotoState t p).trace).length = (sampledTdo p.trace).length + tapDist p.tapState t ∧
    (gotoState p.tapState p) = p

/-- R104, R105: from any state `Reset()` drives 32 full pulses with TMS = 1 and ends in TestLogicReset with TMS held at
1; a second one leaves the same TAP state and latch. (TDI = 0 is decision D9, the untracked pulses decision D33.) -/
def Obligations.ResetReachesTestLogicResetFromAnyState : Prop :=
  ∀ p : Pins,
    (tapReset p).tapState = .testLogicReset ∧ (tapReset p).tmsHold = true ∧
    (∃ tdo : List Bool, tdo.length = 32 ∧
      (tapReset p).trace = p.trace ++ tdo.map fun b => PinEvent.full false true b) ∧
    (tapReset p).tdoIn = p.tdoIn.drop 32 ∧
    (tapReset (tapReset p)).tapState = (tapReset p).tapState ∧
    (tapReset (tapReset p)).tmsHold = (tapReset p).tmsHold

/-! ## The shift engine -/

/-- R121, R124, R125, R128: a checked shift drives exactly its `n` bits as full pulses, least significant first, all
of them whatever the target answers, TMS = 1 on the last one only when it exits; it ends in Exit1DR or Exit1IR, or
stays. With no bit it drives nothing. -/
def Obligations.ShiftCheckedDrivesEveryBitLeastSignificantFirst : Prop :=
  ∀ (s : State) (n : Nat) (exit : Bool),
    (s.pins.tapState = .shiftDR ∨ s.pins.tapState = .shiftIR) →
    drivenPins (shiftChecked n exit s).pins.trace =
      drivenPins s.pins.trace ++ shiftPins n exit (bufBit s.ctx.tdiBuf) ∧
    (sampledTdo (shiftChecked n exit s).pins.trace).length = (sampledTdo s.pins.trace).length + n ∧
    (shiftChecked n exit s).pins.tapState =
      (if exit = true ∧ n ≠ 0 then tapNext s.pins.tapState true else s.pins.tapState) ∧
    SamePlatform s (shiftChecked n exit s) ∧
    (shiftChecked n exit s).ctx =
      { s.ctx with tdoCaptured := (shiftChecked n exit s).ctx.tdoCaptured }

/-- R121, R129: a checked shift collects the target's answers bit by bit below the compare bound; bits at or above it
are shifted and dropped; the padding bits of the top byte are 0 (decision D13). -/
def Obligations.ShiftCheckedCapturesTheAnswersBelowTheBound : Prop :=
  ∀ (s : State) (n : Nat) (exit : Bool), s.ctx.tdoCaptured.length = s.cfg.cmpBytes →
    Captured n ((sampledTdo (shiftChecked n exit s).pins.trace).drop (sampledTdo s.pins.trace).length)
      s.ctx.tdoCaptured (shiftChecked n exit s).ctx.tdoCaptured

/-- R126: a fast shift of `n` bits is `n - 1` fast pulses with TMS as held, in order from bit 0, and then one full pulse
with the last bit and TMS = `exit`, the only one that samples (its being a full pulse is decision D20); of no bit it is
no pulse. It writes no buffer and changes nothing but the pins. -/
def Obligations.ShiftFastSamplesOnlyTheLastBit : Prop :=
  ∀ (s : State) (n : Nat) (exit : Bool),
    (n = 0 → (shiftFast n exit s).pins = s.pins) ∧
    (n ≠ 0 → (shiftFast n exit s).pins.trace = s.pins.trace ++
        ((List.range (n - 1)).map fun j => PinEvent.fast (bufBit s.ctx.tdiBuf j) s.pins.tmsHold) ++
        [PinEvent.full (bufBit s.ctx.tdiBuf (n - 1)) exit (tdoNow s.pins)] ∧
      (shiftFast n exit s).pins.tmsHold = exit ∧
      (shiftFast n exit s).pins.tdoIn = s.pins.tdoIn.drop 1) ∧
    (sampledTdo (shiftFast n exit s).pins.trace).length =
      (sampledTdo s.pins.trace).length + (if n = 0 then 0 else 1) ∧
    (shiftFast n exit s).pins.trace.length = s.pins.trace.length + n ∧
    (shiftFast n exit s).ctx = s.ctx ∧ SamePlatform s (shiftFast n exit s)

/-- R127: checked and fast shifts of the same bits, started in ShiftDR with TMS held at 0, put the same (TDI, TMS)
pairs on the wire and end in the same TAP state with the same TMS held. -/
def Obligations.CheckedAndFastShiftsDriveTheSamePins : Prop :=
  ∀ (s : State) (n : Nat) (exit : Bool), s.pins.tapState = .shiftDR → s.pins.tmsHold = false →
    drivenPins (shiftChecked n exit s).pins.trace = drivenPins (shiftFast n exit s).pins.trace ∧
    (shiftChecked n exit s).pins.tapState = (shiftFast n exit s).pins.tapState ∧
    (shiftChecked n exit s).pins.tmsHold = (shiftFast n exit s).pins.tmsHold

/-- R123, R129: `matched` is 1 exactly when every byte position below the scan AND below the compare bound agrees on
the bits its mask byte has (every compare being masked is decision D13); what lies beyond the bound never counts. -/
def Obligations.MatchedComparesMaskedBytesBelowTheBoundOnly : Prop :=
  ∀ (n : Nat) (s : State),
    (matched n s = true ↔ ComparesEqual n s) ∧
    (matched n s = true ↔
      ∀ j, j / 8 < min (ceil8 n) s.cfg.cmpBytes → bufBit s.ctx.tdoMask j = true →
        bufBit s.ctx.tdoCaptured j = bufBit s.ctx.tdoExpected j)

/-- R129: with a scan wider than the compare buffers, every bit is still driven and clocked, but the bits at and above
the bound are neither stored nor compared: two scans whose targets answered alike below the bound leave the same
buffers and the same result of the compare. Equal capacities leave no such bit. -/
def Obligations.BitsAboveTheCompareBoundAreShiftedButNeverKept : Prop :=
  (∀ (s u : State) (n : Nat) (exit : Bool), s.cfg = u.cfg → s.ctx = u.ctx → s.cfg.cmpBytes < ceil8 n →
    s.ctx.tdoCaptured.length = s.cfg.cmpBytes → (s.pins.tapState = .shiftDR ∨ s.pins.tapState = .shiftIR) →
    drivenPins (shiftChecked n exit s).pins.trace =
      drivenPins s.pins.trace ++ shiftPins n exit (bufBit s.ctx.tdiBuf) ∧
    (sampledTdo (shiftChecked n exit s).pins.trace).length = (sampledTdo s.pins.trace).length + n ∧
    (((sampledTdo (shiftChecked n exit s).pins.trace).drop (sampledTdo s.pins.trace).length).take
        (8 * s.cfg.cmpBytes) =
      ((sampledTdo (shiftChecked n exit u).pins.trace).drop (sampledTdo u.pins.trace).length).take
        (8 * s.cfg.cmpBytes) →
      (shiftChecked n exit s).ctx = (shiftChecked n exit u).ctx ∧
      matched n (shiftChecked n exit s) = matched n (shiftChecked n exit u))) ∧
  (∀ (p : Params) (n : Nat), p.ok → p.maxCompareBits = p.maxTdiBits → n ≤ p.maxTdiBits → ceil8 n ≤ p.cmpBytes)

/-- R130 (an inference of the spec from R55, R56, R121, R126): an `n`-bit value spelled big-endian in whole bytes,
read by `ReadVector` and shifted by either engine, comes out bit by bit, least significant first. -/
def Obligations.BigEndianVectorShiftsOutItsValueBitByBit : Prop :=
  ∀ (s : State) (n : Nat) (exit : Bool) (v : BitVec (8 * ceil8 n)),
    Inv s → s.pins.tapState = .shiftDR → n ≤ s.cfg.maxTdiBits →
    let bytes := (List.range (ceil8 n)).map fun m => byteAt v.toNat (ceil8 n - 1 - m)
    drivenPins (shiftChecked n exit (readTdi n bytes s)).pins.trace =
      drivenPins s.pins.trace ++ shiftPins n exit v.getLsbD ∧
    drivenPins (shiftFast n exit (readTdi n bytes s)).pins.trace =
      drivenPins s.pins.trace ++ shiftPins n exit v.getLsbD

/-- R146: with cycles pending the TAP goes to RunTest, gets that many full pulses with TDI = 0 and TMS = 0, each
followed by one `Settle`, stays in RunTest (the literal reading, decision D35) and the count is cleared; with none it
goes to the end state. (The pulse primitive and its TDI and TMS are decision D19.) -/
def Obligations.PostScanAppliesPendingCyclesElseGoesToTheEndState : Prop :=
  ∀ (e : TapState) (s : State),
    (s.ctx.pendingRuntest = 0 → postScan e s = { s with pins := gotoState e s.pins }) ∧
    (s.ctx.pendingRuntest ≠ 0 →
      (∃ tdo : List Bool, tdo.length = s.ctx.pendingRuntest.toNat ∧
        (postScan e s).pins.trace = (gotoState .runTest s.pins).trace ++
          tdo.flatMap fun b => [PinEvent.full false false b, PinEvent.settle]) ∧
      (postScan e s).pins.tapState = .runTest ∧ (postScan e s).pins.tmsHold = false ∧
      (postScan e s).ctx = { s.ctx with pendingRuntest := 0 } ∧ SamePlatform s (postScan e s))

/-! ## Context-setting opcodes -/

/-- XTDOMASK (R160): completes, loads `ceil8(sdr_size)` bytes into the mask by R55 (bytes for positions beyond
`CMP_BYTES` dropped, decision D14), and changes nothing else. -/
def Obligations.XtdomaskLoadsTheMaskAndNothingElse : Prop :=
  ∀ (s : State) (mask : List Byte), Inv s → mask.length = ceil8 (scanBits s) →
    ∃ buf, VectorRead mask s.ctx.tdoMask buf ∧
      exec (.xtdomask mask) s = .next { s with ctx := { s.ctx with tdoMask := buf } }

/-- XREPEAT (R162): completes and changes nothing, whatever the count; in the stream it takes two bytes, its opcode and
the count, and moves only the cursor; where the stream ends before the count, the run ends with `EXHAUSTED` (decision
D11). That its opcode is 0x07 under the default map is general knowledge of the spec (I2; log entry 2). -/
def Obligations.XrepeatReadsItsCountAndChangesNothing : Prop :=
  (∀ (s : State) (count : Byte), exec (.xrepeat count) s = .next s) ∧
  defaultOpcodes.xrepeat = 0x07 ∧
  ∀ s : State, inRun s = true → s.cfg.opcodes.distinct →
    sourceByte s.source s.source.cursor = some s.cfg.opcodes.xrepeat →
    (∀ count, sourceByte s.source (s.source.cursor + 1) = some count →
      step s = .next { s with source := { s.source with cursor := s.source.cursor + 2 } }) ∧
    (sourceByte s.source (s.source.cursor + 1) = none → s.source.tail = .eos →
      step s = .next
        { s with
          source := { s.source with cursor := s.source.cursor + 1 }
          ctl := { s.ctl with outcome := some .exhausted } })

/-- XRUNTEST (R163): completes and sets the pending count; it replaces an earlier one, it does not add to it
(decision D27). -/
def Obligations.XruntestSetsThePendingCount : Prop :=
  ∀ (s : State) (count : Word32),
    exec (.xruntest count) s = .next { s with ctx := { s.ctx with pendingRuntest := count } }

/-- XSDRSIZE (R166): a size up to and including `MAX_TDI_BITS` is set; a larger one ends the run with `OVERFLOW`,
`sdr_size` unchanged (the strict unsigned test and the unchanged register are decision D22). -/
def Obligations.XsdrsizeSetsTheWidthOrOverflows : Prop :=
  ∀ (s : State) (size : Word32),
    (size.toNat ≤ s.cfg.maxTdiBits →
      exec (.xsdrsize size) s = .next { s with ctx := { s.ctx with sdrSize := size } }) ∧
    (s.cfg.maxTdiBits < size.toNat →
      exec (.xsdrsize size) s = .next { s with ctl := { s.ctl with outcome := some .overflow } })

/-- XENDIR and XENDDR (R168, R169): a nonzero byte, any of 1 to 255 (decision D24), selects PauseIR or PauseDR, zero
selects RunTest; nothing else changes and the TAP does not move. -/
def Obligations.XendirAndXenddrSelectTheEndState : Prop :=
  ∀ (s : State) (flag : Byte),
    exec (.xendir flag) s =
      .next { s with ctx := { s.ctx with endIrState := if flag = 0 then .runTest else .pauseIR } } ∧
    exec (.xenddr flag) s =
      .next { s with ctx := { s.ctx with endDrState := if flag = 0 then .runTest else .pauseDR } }

/-! ## Scan opcodes -/

/-- XSIR and XSIR2 (R180, R182, R185): for every length up to `MAX_TDI_BITS` the scan completes: shortest path to
ShiftIR, the data least significant bit first with exit, every bit sampled (R183), then `PostScan(end_ir_state)`, each
run-test pulse followed by `Settle` (R146); `sdr_size`, `tdo_mask` and `tdo_expected` are not touched, and no run ends.
(TDI = 0 outside the shift is decision D9, the high length byte first D30, the run-test pulse D19, the state after
run-test cycles D35, the cleared capture bytes D13.) -/
def Obligations.InstructionScanShiftsThroughShiftIR : Prop :=
  ∀ (s : State) (i : Instr) (n : Nat) (tdi : List Byte), Inv s →
    ((∃ len : Byte, i = .xsir len tdi ∧ n = len.toNat) ∨
      (∃ len : BitVec 16, i = .xsir2 len tdi ∧ n = len.toNat)) →
    n ≤ s.cfg.maxTdiBits → tdi.length = ceil8 n →
    ∃ t, exec i s = .next t ∧
      drivenPins t.pins.trace = drivenPins s.pins.trace ++ navPins s.pins.tapState .shiftIR ++
        shiftPins n true (vectorBit tdi) ++
        postScanPins (afterExit n .shiftIR .exit1IR) s.ctx.endIrState s.ctx.pendingRuntest.toNat ∧
      actions t.pins.trace = actions s.pins.trace ++ fullPulses (navPins s.pins.tapState .shiftIR) ++
        fullPulses (shiftPins n true (vectorBit tdi)) ++
        postScanActions (afterExit n .shiftIR .exit1IR) s.ctx.endIrState s.ctx.pendingRuntest.toNat ∧
      (sampledTdo t.pins.trace).length = (sampledTdo s.pins.trace).length +
        tapDist s.pins.tapState .shiftIR + n +
        postScanSamples (afterExit n .shiftIR .exit1IR) s.ctx.endIrState s.ctx.pendingRuntest.toNat ∧
      t.pins.tapState = postScanState s.ctx.endIrState s.ctx.pendingRuntest.toNat ∧
      SamePlatform s t ∧
      t.ctx = { s.ctx with
        tdiBuf := t.ctx.tdiBuf, tdoCaptured := t.ctx.tdoCaptured, pendingRuntest := 0 } ∧
      VectorRead tdi s.ctx.tdiBuf t.ctx.tdiBuf ∧
      Captured n (scanAnswers s t .shiftIR n) s.ctx.tdoCaptured t.ctx.tdoCaptured

/-- R181 (decision D16): a length above `MAX_TDI_BITS` ends the run with `OVERFLOW` before any data byte and any
pin. -/
def Obligations.InstructionScanLongerThanTheMaximumOverflows : Prop :=
  ∀ (s : State) (i : Instr) (n : Nat) (tdi : List Byte),
    ((∃ len : Byte, i = .xsir len tdi ∧ n = len.toNat) ∨
      (∃ len : BitVec 16, i = .xsir2 len tdi ∧ n = len.toNat)) →
    s.cfg.maxTdiBits < n →
    exec i s = .next { s with ctl := { s.ctl with outcome := some .overflow } } ∧
      (i.wellFormed s.cfg s.ctx.sdrSize = true → tdi = [])

/-- XSDR (R184, R185): completes: shortest path to ShiftDR, `sdr_size` bits least significant first with exit, every
bit sampled (R121), then `PostScan(end_dr_state)`, each run-test pulse followed by `Settle` (R146); it compares
nothing (decision D37) and no run ends. (D9, D13, D19, D35 as for the instruction scan.) -/
def Obligations.XsdrShiftsThroughShiftDRWithoutCompare : Prop :=
  ∀ (s : State) (tdi : List Byte), Inv s → tdi.length = ceil8 (scanBits s) →
    ∃ t, exec (.xsdr tdi) s = .next t ∧
      drivenPins t.pins.trace = drivenPins s.pins.trace ++ navPins s.pins.tapState .shiftDR ++
        shiftPins (scanBits s) true (vectorBit tdi) ++
        postScanPins (afterExit (scanBits s) .shiftDR .exit1DR) s.ctx.endDrState
          s.ctx.pendingRuntest.toNat ∧
      actions t.pins.trace = actions s.pins.trace ++ fullPulses (navPins s.pins.tapState .shiftDR) ++
        fullPulses (shiftPins (scanBits s) true (vectorBit tdi)) ++
        postScanActions (afterExit (scanBits s) .shiftDR .exit1DR) s.ctx.endDrState
          s.ctx.pendingRuntest.toNat ∧
      (sampledTdo t.pins.trace).length = (sampledTdo s.pins.trace).length +
        tapDist s.pins.tapState .shiftDR + scanBits s +
        postScanSamples (afterExit (scanBits s) .shiftDR .exit1DR) s.ctx.endDrState
          s.ctx.pendingRuntest.toNat ∧
      t.pins.tapState = postScanState s.ctx.endDrState s.ctx.pendingRuntest.toNat ∧
      SamePlatform s t ∧
      t.ctx = { s.ctx with
        tdiBuf := t.ctx.tdiBuf, tdoCaptured := t.ctx.tdoCaptured, pendingRuntest := 0 } ∧
      VectorRead tdi s.ctx.tdiBuf t.ctx.tdiBuf ∧
      Captured (scanBits s) (scanAnswers s t .shiftDR (scanBits s)) s.ctx.tdoCaptured t.ctx.tdoCaptured

/-- XSDRTDO (R186, R187): the whole scan is driven and every bit of it sampled; then, when captured and expected agree
under the mask, `PostScan` runs, each run-test pulse followed by `Settle` (R146), and the run goes on; else the run
ends with `FAIL`, the TAP where the shift left it and the pending count kept (the order is decision D12; D9, D13, D19,
D35 as for the instruction scan). -/
def Obligations.XsdrtdoComparesAfterTheWholeScan : Prop :=
  ∀ (s : State) (tdi tdo : List Byte), Inv s →
    tdi.length = ceil8 (scanBits s) → tdo.length = ceil8 (scanBits s) →
    ∃ t, exec (.xsdrtdo tdi tdo) s = .next t ∧
      t.cfg = s.cfg ∧ t.source = s.source ∧
      VectorRead tdi s.ctx.tdiBuf t.ctx.tdiBuf ∧ VectorRead tdo s.ctx.tdoExpected t.ctx.tdoExpected ∧
      Captured (scanBits s) (scanAnswers s t .shiftDR (scanBits s)) s.ctx.tdoCaptured t.ctx.tdoCaptured ∧
      (ComparesEqual (scanBits s) t →
        t.ctl = s.ctl ∧
        t.pins.tapState = postScanState s.ctx.endDrState s.ctx.pendingRuntest.toNat ∧
        t.ctx = { s.ctx with
          tdiBuf := t.ctx.tdiBuf, tdoExpected := t.ctx.tdoExpected, tdoCaptured := t.ctx.tdoCaptured,
          pendingRuntest := 0 } ∧
        drivenPins t.pins.trace = drivenPins s.pins.trace ++ navPins s.pins.tapState .shiftDR ++
          shiftPins (scanBits s) true (vectorBit tdi) ++
          postScanPins (afterExit (scanBits s) .shiftDR .exit1DR) s.ctx.endDrState
            s.ctx.pendingRuntest.toNat ∧
        actions t.pins.trace = actions s.pins.trace ++ fullPulses (navPins s.pins.tapState .shiftDR) ++
          fullPulses (shiftPins (scanBits s) true (vectorBit tdi)) ++
          postScanActions (afterExit (scanBits s) .shiftDR .exit1DR) s.ctx.endDrState
            s.ctx.pendingRuntest.toNat ∧
        (sampledTdo t.pins.trace).length = (sampledTdo s.pins.trace).length +
          tapDist s.pins.tapState .shiftDR + scanBits s +
          postScanSamples (afterExit (scanBits s) .shiftDR .exit1DR) s.ctx.endDrState
            s.ctx.pendingRuntest.toNat) ∧
      (¬ ComparesEqual (scanBits s) t →
        t.ctl = { s.ctl with outcome := some .fail } ∧
        t.pins.tapState = afterExit (scanBits s) .shiftDR .exit1DR ∧
        t.ctx = { s.ctx with
          tdiBuf := t.ctx.tdiBuf, tdoExpected := t.ctx.tdoExpected, tdoCaptured := t.ctx.tdoCaptured } ∧
        drivenPins t.pins.trace = drivenPins s.pins.trace ++ navPins s.pins.tapState .shiftDR ++
          shiftPins (scanBits s) true (vectorBit tdi) ∧
        actions t.pins.trace = actions s.pins.trace ++ fullPulses (navPins s.pins.tapState .shiftDR) ++
          fullPulses (shiftPins (scanBits s) true (vectorBit tdi)) ∧
        (sampledTdo t.pins.trace).length = (sampledTdo s.pins.trace).length +
          tapDist s.pins.tapState .shiftDR + scanBits s)

/-! ## Quick scan opcodes -/

/-- XSDRB (R200): from any TAP state, shortest path to ShiftDR and `sdr_size` bits without exit, by the fast engine
(decision D18), so that the last bit alone is sampled; it stays in ShiftDR with TMS held at 0, and the pending count
is neither applied nor cleared (R205). -/
def Obligations.XsdrbEntersShiftDRAndStays : Prop :=
  ∀ (s : State) (tdi : List Byte), Inv s → tdi.length = ceil8 (scanBits s) →
    ∃ t, exec (.xsdrb tdi) s = .next t ∧
      drivenPins t.pins.trace = drivenPins s.pins.trace ++ navPins s.pins.tapState .shiftDR ++
        shiftPins (scanBits s) false (vectorBit tdi) ∧
      actions t.pins.trace = actions s.pins.trace ++ fullPulses (navPins s.pins.tapState .shiftDR) ++
        fastShiftActions (scanBits s) false (vectorBit tdi) ∧
      (sampledTdo t.pins.trace).length = (sampledTdo s.pins.trace).length +
        tapDist s.pins.tapState .shiftDR + min 1 (scanBits s) ∧
      t.pins.tapState = .shiftDR ∧ t.pins.tmsHold = false ∧ SamePlatform s t ∧
      t.ctx = { s.ctx with tdiBuf := t.ctx.tdiBuf } ∧ VectorRead tdi s.ctx.tdiBuf t.ctx.tdiBuf

/-- XSDRC (R201): in ShiftDR, `sdr_size` more bits by the fast engine, the last alone sampled, no navigation, staying
in ShiftDR; the pending count is kept (R205). -/
def Obligations.XsdrcContinuesInShiftDR : Prop :=
  ∀ (s : State) (tdi : List Byte), Inv s → tdi.length = ceil8 (scanBits s) →
    s.pins.tapState = .shiftDR →
    ∃ t, exec (.xsdrc tdi) s = .next t ∧
      drivenPins t.pins.trace = drivenPins s.pins.trace ++ shiftPins (scanBits s) false (vectorBit tdi) ∧
      actions t.pins.trace = actions s.pins.trace ++ fastShiftActions (scanBits s) false (vectorBit tdi) ∧
      (sampledTdo t.pins.trace).length = (sampledTdo s.pins.trace).length + min 1 (scanBits s) ∧
      t.pins.tapState = .shiftDR ∧ t.pins.tmsHold = false ∧ SamePlatform s t ∧
      t.ctx = { s.ctx with tdiBuf := t.ctx.tdiBuf } ∧ VectorRead tdi s.ctx.tdiBuf t.ctx.tdiBuf

/-- XSDRE (R202): in ShiftDR, the last `sdr_size` bits by the fast engine with exit, the last bit alone sampled, then
the shortest path to `end_dr_state` (its TDI = 0 is decision D9); the pending count is kept (R205). With no bit the
path leaves from ShiftDR (R128). -/
def Obligations.XsdreEndsTheQuickScan : Prop :=
  ∀ (s : State) (tdi : List Byte), Inv s → tdi.length = ceil8 (scanBits s) →
    s.pins.tapState = .shiftDR →
    ∃ t, exec (.xsdre tdi) s = .next t ∧
      drivenPins t.pins.trace = drivenPins s.pins.trace ++ shiftPins (scanBits s) true (vectorBit tdi) ++
        navPins (afterExit (scanBits s) .shiftDR .exit1DR) s.ctx.endDrState ∧
      actions t.pins.trace = actions s.pins.trace ++ fastShiftActions (scanBits s) true (vectorBit tdi) ++
        fullPulses (navPins (afterExit (scanBits s) .shiftDR .exit1DR) s.ctx.endDrState) ∧
      (sampledTdo t.pins.trace).length = (sampledTdo s.pins.trace).length + min 1 (scanBits s) +
        tapDist (afterExit (scanBits s) .shiftDR .exit1DR) s.ctx.endDrState ∧
      t.pins.tapState = s.ctx.endDrState ∧ SamePlatform s t ∧
      t.ctx = { s.ctx with tdiBuf := t.ctx.tdiBuf } ∧ VectorRead tdi s.ctx.tdiBuf t.ctx.tdiBuf

/-- XSDRTDOB (R206): from any TAP state, shortest path to ShiftDR (TDI = 0 is decision D9), `sdr_size` bits clocked
and sampled without exit (R209), then the compare: a mismatch ends the run with `FAIL`; either way the TAP stays in
ShiftDR and nothing more is driven. -/
def Obligations.XsdrtdobEntersShiftDRAndCompares : Prop :=
  ∀ (s : State) (tdi tdo : List Byte), Inv s →
    tdi.length = ceil8 (scanBits s) → tdo.length = ceil8 (scanBits s) →
    ∃ t, exec (.xsdrtdob tdi tdo) s = .next t ∧
      drivenPins t.pins.trace = drivenPins s.pins.trace ++ navPins s.pins.tapState .shiftDR ++
        shiftPins (scanBits s) false (vectorBit tdi) ∧
      actions t.pins.trace = actions s.pins.trace ++ fullPulses (navPins s.pins.tapState .shiftDR) ++
        fullPulses (shiftPins (scanBits s) false (vectorBit tdi)) ∧
      (sampledTdo t.pins.trace).length = (sampledTdo s.pins.trace).length +
        tapDist s.pins.tapState .shiftDR + scanBits s ∧
      t.pins.tapState = .shiftDR ∧ t.pins.tmsHold = false ∧ t.cfg = s.cfg ∧ t.source = s.source ∧
      t.ctx = { s.ctx with
        tdiBuf := t.ctx.tdiBuf, tdoExpected := t.ctx.tdoExpected, tdoCaptured := t.ctx.tdoCaptured } ∧
      VectorRead tdi s.ctx.tdiBuf t.ctx.tdiBuf ∧ VectorRead tdo s.ctx.tdoExpected t.ctx.tdoExpected ∧
      Captured (scanBits s) (scanAnswers s t .shiftDR (scanBits s)) s.ctx.tdoCaptured t.ctx.tdoCaptured ∧
      (ComparesEqual (scanBits s) t → t.ctl = s.ctl) ∧
      (¬ ComparesEqual (scanBits s) t → t.ctl = { s.ctl with outcome := some .fail })

/-- XSDRTDOC (R207): in ShiftDR, as XSDRTDOB without navigation: `sdr_size` bits clocked and sampled without exit
(R209), then the compare. -/
def Obligations.XsdrtdocContinuesAndCompares : Prop :=
  ∀ (s : State) (tdi tdo : List Byte), Inv s →
    tdi.length = ceil8 (scanBits s) → tdo.length = ceil8 (scanBits s) →
    s.pins.tapState = .shiftDR →
    ∃ t, exec (.xsdrtdoc tdi tdo) s = .next t ∧
      drivenPins t.pins.trace = drivenPins s.pins.trace ++ shiftPins (scanBits s) false (vectorBit tdi) ∧
      actions t.pins.trace = actions s.pins.trace ++ fullPulses (shiftPins (scanBits s) false (vectorBit tdi)) ∧
      (sampledTdo t.pins.trace).length = (sampledTdo s.pins.trace).length + scanBits s ∧
      t.pins.tapState = .shiftDR ∧ t.pins.tmsHold = false ∧ t.cfg = s.cfg ∧ t.source = s.source ∧
      t.ctx = { s.ctx with
        tdiBuf := t.ctx.tdiBuf, tdoExpected := t.ctx.tdoExpected, tdoCaptured := t.ctx.tdoCaptured } ∧
      VectorRead tdi s.ctx.tdiBuf t.ctx.tdiBuf ∧ VectorRead tdo s.ctx.tdoExpected t.ctx.tdoExpected ∧
      Captured (scanBits s) (scanAnswers s t .shiftDR (scanBits s)) s.ctx.tdoCaptured t.ctx.tdoCaptured ∧
      (ComparesEqual (scanBits s) t → t.ctl = s.ctl) ∧
      (¬ ComparesEqual (scanBits s) t → t.ctl = { s.ctl with outcome := some .fail })

/-- XSDRTDOE (R208): in ShiftDR, `sdr_size` bits clocked and sampled with exit (R209), then the compare: on agreement
the shortest path to `end_dr_state` (TDI = 0 is decision D9), on mismatch `FAIL` with the TAP left where the shift
ended; no run-test cycles (R205). -/
def Obligations.XsdrtdoeEndsTheQuickScanAndCompares : Prop :=
  ∀ (s : State) (tdi tdo : List Byte), Inv s →
    tdi.length = ceil8 (scanBits s) → tdo.length = ceil8 (scanBits s) →
    s.pins.tapState = .shiftDR →
    ∃ t, exec (.xsdrtdoe tdi tdo) s = .next t ∧ t.cfg = s.cfg ∧ t.source = s.source ∧
      t.ctx = { s.ctx with
        tdiBuf := t.ctx.tdiBuf, tdoExpected := t.ctx.tdoExpected, tdoCaptured := t.ctx.tdoCaptured } ∧
      VectorRead tdi s.ctx.tdiBuf t.ctx.tdiBuf ∧ VectorRead tdo s.ctx.tdoExpected t.ctx.tdoExpected ∧
      Captured (scanBits s) (scanAnswers s t .shiftDR (scanBits s)) s.ctx.tdoCaptured t.ctx.tdoCaptured ∧
      (ComparesEqual (scanBits s) t →
        t.ctl = s.ctl ∧ t.pins.tapState = s.ctx.endDrState ∧
        drivenPins t.pins.trace = drivenPins s.pins.trace ++
          shiftPins (scanBits s) true (vectorBit tdi) ++
          navPins (afterExit (scanBits s) .shiftDR .exit1DR) s.ctx.endDrState ∧
        actions t.pins.trace = actions s.pins.trace ++
          fullPulses (shiftPins (scanBits s) true (vectorBit tdi)) ++
          fullPulses (navPins (afterExit (scanBits s) .shiftDR .exit1DR) s.ctx.endDrState) ∧
        (sampledTdo t.pins.trace).length = (sampledTdo s.pins.trace).length + scanBits s +
          tapDist (afterExit (scanBits s) .shiftDR .exit1DR) s.ctx.endDrState) ∧
      (¬ ComparesEqual (scanBits s) t →
        t.ctl = { s.ctl with outcome := some .fail } ∧
        t.pins.tapState = afterExit (scanBits s) .shiftDR .exit1DR ∧
        drivenPins t.pins.trace = drivenPins s.pins.trace ++
          shiftPins (scanBits s) true (vectorBit tdi) ∧
        actions t.pins.trace = actions s.pins.trace ++
          fullPulses (shiftPins (scanBits s) true (vectorBit tdi)) ∧
        (sampledTdo t.pins.trace).length = (sampledTdo s.pins.trace).length + scanBits s)

/-- R204, R247 (decision D17): a quick continue or end reached outside ShiftDR, its operands whole, is the model fault
`QUICK_OUTSIDE_SHIFT`: each operand the form has is in its buffer, as `ReadVector` leaves it (R55; beyond the capacity
dropped, decision D14), nothing else is written, no pin is driven, no outcome is set. -/
def Obligations.QuickContinueOrEndOutsideShiftDRFaults : Prop :=
  (∀ (s : State) (i : Instr), needsShiftDR i = true → i.wellFormed s.cfg s.ctx.sdrSize = true →
    s.pins.tapState ≠ .shiftDR →
    ∃ t, exec i s = .next t ∧ t.ctl = { s.ctl with faulted := some .quickOutsideShift } ∧
      t.pins = s.pins ∧ t.cfg = s.cfg ∧ t.source = s.source ∧
      t.ctx = { s.ctx with tdiBuf := t.ctx.tdiBuf, tdoExpected := t.ctx.tdoExpected }) ∧
  (∀ (s : State) (i : Instr) (tdi : List Byte), (i = .xsdrc tdi ∨ i = .xsdre tdi) →
    tdi.length = ceil8 (scanBits s) → s.ctx.tdiBuf.length = s.cfg.tdiBytes → s.pins.tapState ≠ .shiftDR →
    ∃ buf, VectorRead tdi s.ctx.tdiBuf buf ∧
      exec i s = .next
        { s with
          ctx := { s.ctx with tdiBuf := buf }
          ctl := { s.ctl with faulted := some .quickOutsideShift } }) ∧
  (∀ (s : State) (i : Instr) (tdi tdo : List Byte), (i = .xsdrtdoc tdi tdo ∨ i = .xsdrtdoe tdi tdo) →
    tdi.length = ceil8 (scanBits s) → tdo.length = ceil8 (scanBits s) →
    s.ctx.tdiBuf.length = s.cfg.tdiBytes → s.ctx.tdoExpected.length = s.cfg.cmpBytes →
    s.pins.tapState ≠ .shiftDR →
    ∃ buf exp, VectorRead tdi s.ctx.tdiBuf buf ∧ VectorRead tdo s.ctx.tdoExpected exp ∧
      exec i s = .next
        { s with
          ctx := { s.ctx with tdiBuf := buf, tdoExpected := exp }
          ctl := { s.ctl with faulted := some .quickOutsideShift } })

/-! ## Control opcodes -/

/-- XSTATE (R220, R77): each byte 0 to 15 moves the TAP along the shortest path to the state whose id it is, at most
8 pulses, TestLogicReset too (no `Reset()`, decision D21); the context, the byte source and the run are untouched.
(TDI = 0 is decision D9.) -/
def Obligations.XstateMovesToTheStateItsByteNames : Prop :=
  ∀ (s : State) (b : Byte), b.toNat ≤ 15 →
    ∃ (u : TapState) (t : State), exec (.xstate b) s = .next t ∧ u.id.toNat = b.toNat ∧
      t.pins.tapState = u ∧
      drivenPins t.pins.trace = drivenPins s.pins.trace ++ navPins s.pins.tapState u ∧
      t.ctx = s.ctx ∧ SamePlatform s t

/-- R221 (decision D15): an XSTATE byte above 15 is the model fault `BAD_STATE_ID`, and nothing else happens. -/
def Obligations.XstateByteAboveFifteenFaults : Prop :=
  ∀ (s : State) (b : Byte), 15 < b.toNat →
    exec (.xstate b) s = .next { s with ctl := { s.ctl with faulted := some .badStateId } }

/-- XCOMPLETE (R224): completes with `SUCCESS`, leaving TAP and context where they are (decision D38). -/
def Obligations.XcompleteEndsTheRunWithSuccess : Prop :=
  ∀ s : State, exec .xcomplete s = .next { s with ctl := { s.ctl with outcome := some .success } }

/-! ## Frames and rules over all instructions -/

/-- 43_xsvf_context.md, R149: none of the six context-setting opcodes drives a pin or touches what is outside the
context; only XSDRSIZE can end a run that has its operands, and only with `OVERFLOW`. -/
def Obligations.ContextOpcodesDriveNoPin : Prop :=
  ∀ (s t : State) (i : Instr), contextOnly i = true → i.wellFormed s.cfg s.ctx.sdrSize = true →
    exec i s = .next t →
    t.pins = s.pins ∧ t.cfg = s.cfg ∧ t.source = s.source ∧
    t.ctx.tdiBuf = s.ctx.tdiBuf ∧ t.ctx.tdoExpected = s.ctx.tdoExpected ∧
    t.ctx.tdoCaptured = s.ctx.tdoCaptured ∧
    (t.ctl = s.ctl ∨ tooLong s.cfg i = true ∧ t.ctl = { s.ctl with outcome := some .overflow })

/-- R53, R63, R5: no step inside a run writes the byte store, what comes past it, the configuration or the calls the
host has pending, so the source has the same byte at every offset after as before, and the cursor never moves back. -/
def Obligations.NoStepOfARunWritesTheStreamOrTheConfiguration : Prop :=
  ∀ s t : State, inRun s = true → step s = .next t →
    t.source.stream = s.source.stream ∧ t.source.tail = s.source.tail ∧
    s.source.cursor ≤ t.source.cursor ∧ t.cfg = s.cfg ∧ t.ctl.calls = s.ctl.calls ∧ t.ctl.started = true ∧
    (∀ a, Memory.read t.source.stream a = Memory.read s.source.stream a) ∧
    (∀ a, sourceByte t.source a = sourceByte s.source a)

/-- R29, R30, R161: `sdr_size` is written only by XSDRSIZE, `end_ir_state` only by XENDIR, `end_dr_state` only by
XENDDR and `tdo_mask` only by XTDOMASK. (That no other opcode writes the mask is an inference of the spec, R161.) -/
def Obligations.EachContextRegisterHasOneWriter : Prop :=
  ∀ (s t : State) (i : Instr), exec i s = .next t →
    (t.ctx.sdrSize ≠ s.ctx.sdrSize → ∃ size, i = .xsdrsize size) ∧
    (t.ctx.endIrState ≠ s.ctx.endIrState → ∃ flag, i = .xendir flag) ∧
    (t.ctx.endDrState ≠ s.ctx.endDrState → ∃ flag, i = .xenddr flag) ∧
    (t.ctx.tdoMask ≠ s.ctx.tdoMask → ∃ mask, i = .xtdomask mask)

/-- R148, R205 (R148 is an inference of the spec): a pending run-test count outlives every instruction but XRUNTEST
and the four that run `PostScan`, the quick scans included; those four leave it as it was or use it up. -/
def Obligations.PendingCountSurvivesAllButPostScan : Prop :=
  ∀ (s t : State) (i : Instr), exec i s = .next t →
    (∀ count, i ≠ .xruntest count) →
    (runsPostScan i = false → t.ctx.pendingRuntest = s.ctx.pendingRuntest) ∧
    (t.ctx.pendingRuntest = s.ctx.pendingRuntest ∨ t.ctx.pendingRuntest = 0)

/-- R39, R100, R256: an instruction only adds to the trace, and its full pulses sample the target's answers in order,
each answer once. -/
def Obligations.TraceGrowsAndAnswersAreTakenInOrder : Prop :=
  ∀ (s t : State) (i : Instr), exec i s = .next t →
    ∃ more, t.pins.trace = s.pins.trace ++ more ∧
      t.pins.tdoIn = s.pins.tdoIn.drop (sampledTdo more).length ∧
      ∀ j < (sampledTdo more).length, j < s.pins.tdoIn.length →
        (sampledTdo more)[j]? = s.pins.tdoIn[j]?

/-- R125, R142, R187, R247: an instruction that ends the run by a model fault, by `OVERFLOW` or by `EXHAUSTED` has
driven no pin; only a run that ends with `FAIL` has shifted first. (The order is decisions D12, D28.) -/
def Obligations.RunEndingBeforeTheShiftDrivesNoPin : Prop :=
  ∀ (s t : State) (i : Instr), runEnded s = false → exec i s = .next t → runEnded t = true →
    t.ctl.outcome ≠ some .fail → t.pins = s.pins

/-- R101, R275 (inferences of the spec): a fast pulse is driven only while the target's TAP is in ShiftDR with TMS held
at 0, so that no fast pulse moves it. -/
def Obligations.FastPulsesAreDrivenOnlyInShiftDRWithTmsLow : Prop :=
  ∀ (s t : State) (i : Instr), Inv s → exec i s = .next t →
    ∀ (before later : List PinEvent) (tdi tms : Bool),
      t.pins.trace = s.pins.trace ++ before ++ [.fast tdi tms] ++ later →
      tms = false ∧ tapAfter s.pins.tapState before = .shiftDR

/-! ## The whole machine -/

/-- The invariant is kept by every step, from every state that has it, between runs too. -/
def Obligations.EveryStepKeepsTheInvariant : Prop :=
  ∀ s t : State, Inv s → step s = .next t → Inv t

/-- The state after reset has the invariant. -/
def Obligations.ResetMeetsTheInvariant : Prop := Inv State.reset

/-- R20, R21, R104: the core's tracked state never parts from the target's: at every step the pulses driven since the
run began bring a TAP from ANY starting state to exactly `tap_state`, and `tms_hold` is the TMS of the last pulse.
(That a fast pulse is tracked too is decision D4.) -/
def Obligations.EveryStepKeepsTheTapTracked : Prop :=
  ∀ s t : State, TapTracked s → step s = .next t → TapTracked t

/-- The state after reset has the TAP tracked: 32 pulses with TMS = 1 reach TestLogicReset from any state (R104). -/
def Obligations.ResetHasTheTapTracked : Prop := TapTracked State.reset

/-- R143: a step ends a run on exactly one of the six events, with the outcome or the fault of that event, and at no
other time. -/
def Obligations.RunEndsOnlyOnTheSixEvents : Prop :=
  ∀ s t : State, inRun s = true → step s = .next t → runEnded t = true →
    let d := decode s.cfg s.ctx.sdrSize (fetchWindow s)
    (t.ctl.faulted = none ∧
      ((t.ctl.outcome = some .success ∧ ∃ n, d = .instr .xcomplete n) ∨
       (t.ctl.outcome = some .fail ∧
          ((∃ i n, d = .instr i n ∧ compares i = true ∧ matched (scanBits t) t = false) ∨
           ∃ b, d = .unsupported b)) ∨
       (t.ctl.outcome = some .overflow ∧ ∃ i n, d = .instr i n ∧ tooLong s.cfg i = true) ∨
       (t.ctl.outcome = some .exhausted ∧ s.source.tail = .eos ∧
          ((∃ n, d = .exhausted n) ∨ ∃ i n, d = .cutShort i n)))) ∨
    (t.ctl.outcome = none ∧
      ((t.ctl.faulted = some .badStateId ∧ ∃ i n, d = .instr i n ∧ badStateByte i = true) ∨
       (t.ctl.faulted = some .quickOutsideShift ∧
          ∃ i n, d = .instr i n ∧ needsShiftDR i = true ∧ s.pins.tapState ≠ .shiftDR)))

/-- R225: a run becomes successful only by a step that reads XCOMPLETE's byte at the cursor, and takes that byte
alone; that all else stays as it was is decision D38 (log entry 11). Where the stream comes to its end, at the opcode
or inside an instruction, the run gives `EXHAUSTED` (decision D11) and is not successful. -/
def Obligations.SuccessComesOnlyFromXcomplete : Prop :=
  (∀ s t : State, inRun s = true → step s = .next t → RunSucceeded t →
    sourceByte s.source s.source.cursor = some s.cfg.opcodes.xcomplete ∧
    t = { s with
      source := { s.source with cursor := s.source.cursor + 1 }
      ctl := { s.ctl with outcome := some .success } }) ∧
  (∀ s : State, inRun s = true → s.source.tail = .eos →
    ((∃ n, decode s.cfg s.ctx.sdrSize (fetchWindow s) = .exhausted n) ∨
      ∃ i n, decode s.cfg s.ctx.sdrSize (fetchWindow s) = .cutShort i n) →
    ∃ t, step s = .next t ∧ t.ctl.outcome = some .exhausted ∧ ¬ RunSucceeded t)

/-- R143, R259, R260: an ended run is final, and a machine that no run was started on since power-up is as idle (R41,
R257): with no call of `Run()` pending the machine stays as it is. (That the idle machine still answers a step is the
model's choice, log entry 7.) -/
def Obligations.EndedRunStaysAsItIs : Prop :=
  ∀ s : State, runEnded s = true ∨ s.ctl.started = false → s.ctl.calls = [] → step s = .next s

/-- R140, R145, R41: when the host calls `Run()` after a run or after power-up, the next step starts it from the
defaults (the ones the source does not give are decisions D5, D8, the reset at run start D10), whatever the last run
or power-up left, on the stream the host hands over; the TAP has had its 32 pulses (TDI = 0 is decision D9), nothing
else has been driven, and the tracked state and the invariant hold whether or not they held before. -/
def Obligations.NewRunStartsFromTheDefaults : Prop :=
  ∀ (s : State) (c : RunCall) (rest : List RunCall), runEnded s = true ∨ s.ctl.started = false →
    s.ctl.calls = c :: rest →
    ∃ t, step s = .next t ∧ t.cfg = s.cfg ∧
      t.ctx.sdrSize = 32 ∧ t.ctx.endIrState = .runTest ∧ t.ctx.endDrState = .runTest ∧
      t.ctx.pendingRuntest = 0 ∧
      t.ctx.tdiBuf = List.replicate s.cfg.tdiBytes 0 ∧
      t.ctx.tdoExpected = List.replicate s.cfg.cmpBytes 0 ∧
      t.ctx.tdoMask = List.replicate s.cfg.cmpBytes s.cfg.initTdoMask ∧
      t.ctx.tdoCaptured = List.replicate s.cfg.cmpBytes 0 ∧
      t.pins.tapState = .testLogicReset ∧ t.pins.tmsHold = true ∧
      drivenPins t.pins.trace = List.replicate 32 (false, true) ∧ t.pins.trace.length = 32 ∧
      t.pins.tdoIn = c.tdo.drop 32 ∧
      t.source = ⟨c.stream, c.tail, 0⟩ ∧ t.ctl = ⟨none, none, rest, true⟩ ∧
      TapTracked t ∧ (s.cfg.ok → (∀ r ∈ s.ctl.calls, Memory.wf r.stream) → Inv t)

/-- R145, R270 (no rule reads an item before the prologue writes it, an inference of the spec): two machines of one
configuration with the same calls pending start the same run, whatever else their last runs or power-up left in
them. (`freeDraws` is the model's own counter, log entry 5.) -/
def Obligations.NewRunForgetsThePreviousOne : Prop :=
  ∀ s u : State, runEnded s = true ∨ s.ctl.started = false → runEnded u = true ∨ u.ctl.started = false →
    s.ctl.calls = u.ctl.calls → s.ctl.calls ≠ [] →
    s.cfg = u.cfg → s.pins.freeDraws = u.pins.freeDraws → step s = step u

/-- R41. After run start, with the decisions D5 and D8 for the values the source does not give and the configuration the
model resets with (log entries 1, 2 and 10): what the prologue of `Run()` leaves, a run going on. At power-up, from
whatever the unspecified items hold: the cursor 0, no outcome, no fault, an empty trace, and no run going on (log entry
17). -/
def Obligations.ResetLeavesTheListedValues : Prop :=
  State.reset.pins.tapState = .testLogicReset ∧ State.reset.pins.tmsHold = true ∧
  State.reset.ctx.sdrSize = 32 ∧ State.reset.ctx.endIrState = .runTest ∧
  State.reset.ctx.endDrState = .runTest ∧ State.reset.ctx.pendingRuntest = 0 ∧
  State.reset.ctx.tdiBuf = List.replicate 128 0 ∧ State.reset.ctx.tdoExpected = List.replicate 128 0 ∧
  State.reset.ctx.tdoMask = List.replicate 128 0xFF ∧ State.reset.ctx.tdoCaptured = List.replicate 128 0 ∧
  State.reset.source.cursor = 0 ∧ State.reset.ctl.outcome = none ∧ State.reset.ctl.faulted = none ∧
  drivenPins State.reset.pins.trace = List.replicate 32 (false, true) ∧ inRun State.reset = true ∧
  ∀ s : State, (powerUp s).source.cursor = 0 ∧ (powerUp s).ctl.outcome = none ∧ (powerUp s).ctl.faulted = none ∧
    (powerUp s).pins.trace = [] ∧ inRun (powerUp s) = false ∧
    (powerUp s).pins.tapState = s.pins.tapState ∧ (powerUp s).pins.tmsHold = s.pins.tmsHold ∧
    (powerUp s).ctx = s.ctx ∧ (powerUp s).cfg = s.cfg
end

