-- ==== Sys2Proof/Laws/Decode.lean ====
section
/-!
SUPPORT. The small lemmas of the decoder and the encoder: opcode bytes, big-endian operands, and what each operand
form reads.
-/

namespace Sys2Proof

theorem Opcode.mem_all (o : Opcode) : o ∈ Opcode.all := by cases o <;> decide

/-- With distinct bytes the decoder finds each opcode by its byte (R74). -/
theorem decodeOpcode_byteOf (m : OpcodeMap) (h : m.distinct) (o : Opcode) : decodeOpcode m
    (m.byteOf o) = some o := by
  unfold decodeOpcode
  have hinj := List.inj_on_of_nodup_map h
  cases hf : Opcode.all.find? (fun o' => m.byteOf o' == m.byteOf o) with
  | none => simp [List.find?_eq_none] at hf; exact absurd rfl (hf o (Opcode.mem_all o))
  | some o' =>
    have := List.find?_some hf
    simp at this
    rw [hinj (Opcode.mem_all _) (Opcode.mem_all _) this]

/-- An opcode is found only by its own byte. -/
theorem decodeOpcode_some (m : OpcodeMap) (b : Byte) (o : Opcode) (h : decodeOpcode m b = some o) :
    m.byteOf o = b := by
  have := List.find?_some h; simpa using this

/-- The four bytes of a word, the most significant first, compose to it again (R54). -/
theorem word_round (w : Word32) : (byteAt w.toNat 3 ++ byteAt w.toNat 2 ++ byteAt w.toNat 1 ++ byteAt w.toNat 0 :
    Word32) = w := by
  apply BitVec.eq_of_getLsbD_eq
  intro i hi
  simp only [byteAt, BitVec.getLsbD_append, BitVec.getLsbD_ofNat, Nat.testBit_shiftRight]
  have : ∀ j, w.toNat.testBit j = w.getLsbD j := fun j => rfl
  simp only [this]
  by_cases h1 : i < 8
  · simp [h1]
  · by_cases h2 : i < 16
    · have : i - 8 < 8 := by omega
      have e : 8 + (i - 8) = i := by omega
      simp [h1, this, e]
    · by_cases h3 : i < 24
      · have : i - 8 - 8 < 8 := by omega
        have n1 : ¬ i - 8 < 8 := by omega
        have e : 16 + (i - 8 - 8) = i := by omega
        simp [h1, n1, this, e]
      · have : i - 8 - 8 - 8 < 8 := by omega
        have n1 : ¬ i - 8 < 8 := by omega
        have n2 : ¬ i - 8 - 8 < 8 := by omega
        have e : 24 + (i - 8 - 8 - 8) = i := by omega
        simp [h1, n1, n2, this, e]

/-- The same for a 16-bit length (R182). -/
theorem half_round (w : BitVec 16) : (byteAt w.toNat 1 ++ byteAt w.toNat 0 : BitVec 16) = w := by
  apply BitVec.eq_of_getLsbD_eq
  intro i hi
  simp only [byteAt, BitVec.getLsbD_append, BitVec.getLsbD_ofNat, Nat.testBit_shiftRight]
  have : ∀ j, w.toNat.testBit j = w.getLsbD j := fun j => rfl
  simp only [this]
  by_cases h1 : i < 8
  · simp [h1]
  · have : i - 8 < 8 := by omega
    have e : 8 + (i - 8) = i := by omega
    simp [h1, this, e]

theorem toNat_append8 {w : Nat} (x : BitVec w) (y : Byte) : (x ++ y).toNat = x.toNat * 256 + y.toNat := by
  rw [BitVec.toNat_append, Nat.shiftLeft_eq, Nat.mul_comm, ← Nat.two_pow_add_eq_or_of_lt y.isLt]

/-- And a word composed of four bytes has those bytes. -/
theorem bytes_of_word (a b c d : Byte) : wordBytes (a ++ b ++ c ++ d) = [a, b, c, d] := by
  have ha := a.isLt; have hb := b.isLt; have hc := c.isLt; have hd := d.isLt
  simp only [wordBytes, byteAt, toNat_append8, List.cons.injEq, and_true]
  refine ⟨?_, ?_, ?_, ?_⟩ <;> apply BitVec.eq_of_toNat_eq <;>
    simp only [BitVec.toNat_ofNat, Nat.shiftRight_eq_div_pow] <;> omega

theorem bytes_of_half (a b : Byte) : byteAt (a ++ b : BitVec 16).toNat 1 = a ∧ byteAt (a ++ b :
    BitVec 16).toNat 0 = b := by
  have ha := a.isLt; have hb := b.isLt
  simp only [byteAt, toNat_append8]
  refine ⟨?_, ?_⟩ <;> apply BitVec.eq_of_toNat_eq <;>
    simp only [BitVec.toNat_ofNat, Nat.shiftRight_eq_div_pow] <;> omega

theorem takeVector_append (mk : List Byte → Instr) (nb used : Nat) (v rest : List Byte) (h : v.length = nb) :
    takeVector mk nb used (v ++ rest) = .instr (mk v) (used + nb) := by
  subst h; simp [takeVector]

theorem takeTwo_append (mk : List Byte → List Byte → Instr) (nb : Nat) (v e rest : List Byte) (h :
    v.length = nb) (h' : e.length = nb) :
    takeTwoVectors mk nb (v ++ e ++ rest) = .instr (mk v e) (1 + 2 * nb) := by
  subst h; simp [takeTwoVectors, h', two_mul]

theorem takeVector_inv {mk : List Byte → Instr} {nb used n : Nat} {bs : List Byte} {i : Instr}
    (h : takeVector mk nb used bs = .instr i n) : i = mk (bs.take nb) ∧ n = used + nb ∧ nb ≤ bs.length := by
  unfold takeVector at h; split at h
  · cases h; exact ⟨rfl, rfl, by assumption⟩
  · cases h
theorem takeTwo_inv {mk : List Byte → List Byte → Instr} {nb n : Nat} {bs : List Byte} {i : Instr}
    (h : takeTwoVectors mk nb bs = .instr i n) : i = mk (bs.take nb) ((bs.drop nb).take nb) ∧ n = 1 + 2 * nb ∧
        2 * nb ≤ bs.length := by
  unfold takeTwoVectors at h; split at h
  · cases h; exact ⟨rfl, rfl, by assumption⟩
  · cases h
theorem takeByte_inv {mk : Byte → Instr} {n : Nat} {bs : List Byte} {i : Instr}
    (h : takeByte mk bs = .instr i n) : ∃ b r, bs = b :: r ∧ i = mk b ∧ n = 2 := by
  cases bs with
  | nil => cases h
  | cons b r => cases h; exact ⟨_, _, rfl, rfl, rfl⟩
theorem takeWord_inv {mk : Word32 → Instr} {n : Nat} {bs : List Byte} {i : Instr}
    (h : takeWord mk bs = .instr i n) : ∃ a b c d r, bs = a :: b :: c :: d :: r ∧ i = mk (a ++ b ++ c ++ d) ∧
        n = 5 := by
  unfold takeWord at h; split at h
  · cases h; exact ⟨_, _, _, _, _, rfl, rfl, rfl⟩
  · cases h

theorem encode_length (p : Params) (sdr : Word32) (i : Instr) (h : i.wellFormed p sdr = true) :
    (encode p i).length = instrLength p sdr i := by
  cases i <;> simp_all [encode, operandBytes, instrLength, Instr.wellFormed, wordBytes, Nat.add_comm] <;> omega

theorem irDataBytes_le (p : Params) (n : Nat) : irDataBytes p n ≤ ceil8 p.maxTdiBits := by
  unfold irDataBytes ceil8; split <;> omega

theorem instrLength_le (p : Params) (sdr : Word32) (i : Instr) : instrLength p sdr i ≤ longestInstr p sdr := by
  have := fun n => irDataBytes_le p n
  cases i <;> simp only [instrLength, longestInstr] <;> first | omega | (rename_i l _; have := this l.toNat; omega)

/-- A vector operand has fewer bytes than its format asks for: what the decoder answers when the source ends inside
one. -/
def OperandShort (p : Params) (sdr : Word32) : Instr → Prop
  | .xtdomask v | .xsdr v | .xsdrb v | .xsdrc v | .xsdre v => v.length < ceil8 sdr.toNat
  | .xsir l v => ¬ p.maxTdiBits < l.toNat ∧ v.length < ceil8 l.toNat
  | .xsir2 l v => ¬ p.maxTdiBits < l.toNat ∧ v.length < ceil8 l.toNat
  | .xsdrtdo v e | .xsdrtdob v e | .xsdrtdoc v e | .xsdrtdoe v e => v.length < ceil8 sdr.toNat ∨
    e.length < ceil8 sdr.toNat
  | .xcomplete | .xruntest _ | .xrepeat _ | .xsdrsize _ | .xstate _ | .xendir _ | .xenddr _ => False

/-- A well-formed instruction has all its bytes. -/
theorem not_wellFormed_of_short {p : Params} {sdr : Word32} {i : Instr} (h : OperandShort p sdr i)
    (hw : i.wellFormed p sdr = true) : False := by
  cases i <;> simp only [OperandShort, Instr.wellFormed, beq_iff_eq, Bool.and_eq_true] at h hw <;>
    first | omega | (unfold irDataBytes at hw; rw [if_neg h.1] at hw; omega)

theorem takeVector_cutShort {mk : List Byte → Instr} {nb used n : Nat} {bs : List Byte} {i : Instr}
    (h : takeVector mk nb used bs = .cutShort i n) : i = mk bs ∧ n = used + bs.length ∧ bs.length < nb := by
  unfold takeVector at h; split at h <;> cases h; exact ⟨rfl, rfl, by omega⟩
theorem takeTwoVectors_cutShort {mk : List Byte → List Byte → Instr} {nb n : Nat} {bs : List Byte} {i : Instr}
    (h : takeTwoVectors mk nb bs = .cutShort i n) : i = mk (bs.take nb) (bs.drop nb) ∧ n = 1 + bs.length ∧
        bs.length < 2 * nb := by
  unfold takeTwoVectors at h; split at h <;> cases h; exact ⟨rfl, rfl, by omega⟩

/-- An instruction cut short has taken every byte there was, and is short of some. -/
theorem decode_cutShort {p : Params} {sdr : Word32} {bytes : List Byte} {i : Instr} {n : Nat}
    (h : decode p sdr bytes = .cutShort i n) : OperandShort p sdr i ∧ n = bytes.length := by
  unfold decode at h
  split at h
  · cases h
  rename_i op bs
  split at h
  · cases h
  rename_i o ho
  cases o <;> simp only [decodeOperands] at h
  case xcomplete => cases h
  case xrepeat => unfold takeByte at h; split at h <;> cases h
  case xstate => unfold takeByte at h; split at h <;> cases h
  case xendir => unfold takeByte at h; split at h <;> cases h
  case xenddr => unfold takeByte at h; split at h <;> cases h
  case xruntest => unfold takeWord at h; split at h <;> cases h
  case xsdrsize => unfold takeWord at h; split at h <;> cases h
  case xsir =>
    unfold takeIr8 at h; split at h
    · obtain ⟨rfl, rfl, hl⟩ := takeVector_cutShort h
      unfold irDataBytes at hl; split at hl
      · omega
      · exact ⟨⟨by assumption, hl⟩, by simp; omega⟩
    · cases h
  case xsir2 =>
    unfold takeIr16 at h; split at h
    · obtain ⟨rfl, rfl, hl⟩ := takeVector_cutShort h
      unfold irDataBytes at hl; split at hl
      · omega
      · exact ⟨⟨by assumption, hl⟩, by simp; omega⟩
    · cases h
  all_goals first
    | (obtain ⟨rfl, rfl, hl⟩ := takeVector_cutShort h
       exact ⟨hl, by simp; omega⟩)
    | (obtain ⟨rfl, rfl, hl⟩ := takeTwoVectors_cutShort h
       refine ⟨?_, by simp; omega⟩
       simp only [OperandShort, List.length_take, List.length_drop]; omega)

/-- So has one whose opcode byte or fixed operand the source does not hold. -/
theorem decode_exhausted {p : Params} {sdr : Word32} {bytes : List Byte} {n : Nat}
    (h : decode p sdr bytes = .exhausted n) : n = bytes.length := by
  unfold decode at h
  split at h
  · cases h; rfl
  rename_i op bs
  split at h
  · cases h
  rename_i o ho
  have tb : ∀ {mk : Byte → Instr} {l : List Byte}, takeByte mk l = .exhausted n → n = 1 + l.length := by
    intro mk l h; unfold takeByte at h; split at h <;> cases h; rfl
  have tw : ∀ {mk : Word32 → Instr} {l : List Byte}, takeWord mk l = .exhausted n → n = 1 + l.length := by
    intro mk l h; unfold takeWord at h; split at h <;> cases h; rfl
  have tv : ∀ {mk : List Byte → Instr} {a b : Nat} {l : List Byte}, takeVector mk a b l ≠ .exhausted n := by
    intro mk a b l h; unfold takeVector at h; split at h <;> cases h
  have tt : ∀ {mk : List Byte → List Byte → Instr} {a : Nat} {l : List Byte},
      takeTwoVectors mk a l ≠ .exhausted n := by
    intro mk a l h; unfold takeTwoVectors at h; split at h <;> cases h
  cases o <;> simp only [decodeOperands] at h
  case xcomplete => cases h
  case xsir => unfold takeIr8 at h; split at h; exacts [absurd h tv, by cases h; rfl]
  case xsir2 => unfold takeIr16 at h; split at h; exacts [absurd h tv, by cases h; simp; omega]
  all_goals first
    | exact absurd h tv
    | exact absurd h tt
    | (rw [tb h]; simp; omega)
    | (rw [tw h]; simp; omega)

/-- The decoder misses a byte only in a window shorter than the longest instruction. -/
theorem decode_missing {p : Params} {sdr : Word32} {bytes : List Byte} {n : Nat}
    (h : decode p sdr bytes = .exhausted n ∨ ∃ i, decode p sdr bytes = .cutShort i n) :
    bytes.length < longestInstr p sdr := by
  have hir := irDataBytes_le p
  unfold longestInstr
  cases bytes with
  | nil => simp only [List.length_nil]; omega
  | cons op bs =>
    simp only [decode, List.length_cons] at h ⊢
    have tb : ∀ mk : Byte → Instr, takeByte mk bs = .exhausted n ∨ (∃ i, takeByte mk bs = .cutShort i n) →
        bs.length < 4 := by
      intro mk h; cases bs <;> simp [takeByte] at h ⊢
    have tw : ∀ mk : Word32 → Instr, takeWord mk bs = .exhausted n ∨ (∃ i, takeWord mk bs = .cutShort i n) →
        bs.length < 4 := by
      intro mk h; by_contra hl
      obtain _ | ⟨a, _ | ⟨b, _ | ⟨c, _ | ⟨d, l⟩⟩⟩⟩ := bs <;> simp [takeWord] at hl h
    have tv : ∀ (mk : List Byte → Instr) (nb used : Nat) (l : List Byte),
        takeVector mk nb used l = .exhausted n ∨ (∃ i, takeVector mk nb used l = .cutShort i n) → l.length < nb := by
      intro mk nb used l h; unfold takeVector at h; split at h
      · simp at h
      · omega
    have tt : ∀ (mk : List Byte → List Byte → Instr) (nb : Nat),
        takeTwoVectors mk nb bs = .exhausted n ∨ (∃ i, takeTwoVectors mk nb bs = .cutShort i n) →
        bs.length < 2 * nb := by
      intro mk nb h; unfold takeTwoVectors at h; split at h
      · simp at h
      · omega
    split at h
    · simp at h
    · rename_i o _
      cases o <;> simp only [decodeOperands] at h
      case xcomplete => rcases h with h | ⟨_, h⟩ <;> cases h
      case xsir =>
        obtain _ | ⟨l, v⟩ := bs
        · simp only [List.length_nil]; omega
        · have := tv _ _ _ _ h; have := hir l.toNat; simp only [List.length_cons]; omega
      case xsir2 =>
        obtain _ | ⟨a, _ | ⟨b, v⟩⟩ := bs
        · simp only [List.length_nil]; omega
        · simp only [List.length_cons, List.length_nil]; omega
        · have := tv _ _ _ _ h; have := hir (a ++ b : BitVec 16).toNat
          simp only [List.length_cons]; omega
      all_goals first
        | (have := tb _ h; omega)
        | (have := tw _ h; omega)
        | (have := tv _ _ _ _ h; omega)
        | (have := tt _ _ h; omega)

end Sys2Proof
end

