-- ==== Sys2Proof/Laws/State.lean ====
section
/-!
SUPPORT. What each update leaves in each field of the state: one lemma per field and update, so
that no proof unfolds a record update.
-/

namespace Sys2Proof.Machine

variable (s : State) (p : Pins)

@[simp] theorem powerUp_cfg : (powerUp s).cfg = s.cfg := rfl
@[simp] theorem powerUp_pins : (powerUp s).pins = { s.pins with trace := [] } := rfl
@[simp] theorem powerUp_ctx : (powerUp s).ctx = s.ctx := rfl
@[simp] theorem powerUp_source : (powerUp s).source = { s.source with cursor := 0 } := rfl
@[simp] theorem powerUp_ctl : (powerUp s).ctl = ⟨none, none, s.ctl.calls, false⟩ := rfl

/-- A run is going on exactly when one was started and none of its ends has come. -/
theorem inRun_iff : inRun s = true ↔ s.ctl.started = true ∧ runEnded s = false := by
  simp [inRun]

/-- The moments between runs: before the first one, and after the end of one. -/
theorem inRun_false_iff : inRun s = false ↔ runEnded s = true ∨ s.ctl.started = false := by
  unfold inRun; cases runEnded s <;> cases s.ctl.started <;> simp

@[simp] theorem advance_cfg (n : Nat) : (advance n s).cfg = s.cfg := rfl
@[simp] theorem advance_pins (n : Nat) : (advance n s).pins = s.pins := rfl
@[simp] theorem advance_ctx (n : Nat) : (advance n s).ctx = s.ctx := rfl
@[simp] theorem advance_source (n : Nat) :
    (advance n s).source = { s.source with cursor := s.source.cursor + n } := rfl
@[simp] theorem advance_ctl (n : Nat) : (advance n s).ctl = s.ctl := rfl

@[simp] theorem finish_cfg (o : RunOutcome) : (finish o s).cfg = s.cfg := rfl
@[simp] theorem finish_pins (o : RunOutcome) : (finish o s).pins = s.pins := rfl
@[simp] theorem finish_ctx (o : RunOutcome) : (finish o s).ctx = s.ctx := rfl
@[simp] theorem finish_source (o : RunOutcome) : (finish o s).source = s.source := rfl
@[simp] theorem finish_ctl (o : RunOutcome) :
    (finish o s).ctl = { s.ctl with outcome := some o } := rfl

@[simp] theorem raiseFault_cfg (r : ModelFault) : (raiseFault r s).cfg = s.cfg := rfl
@[simp] theorem raiseFault_pins (r : ModelFault) : (raiseFault r s).pins = s.pins := rfl
@[simp] theorem raiseFault_ctx (r : ModelFault) : (raiseFault r s).ctx = s.ctx := rfl
@[simp] theorem raiseFault_source (r : ModelFault) : (raiseFault r s).source = s.source := rfl
@[simp] theorem raiseFault_ctl (r : ModelFault) :
    (raiseFault r s).ctl = { s.ctl with faulted := some r } := rfl

@[simp] theorem navigate_cfg (t : TapState) : (navigate t s).cfg = s.cfg := rfl
@[simp] theorem navigate_pins (t : TapState) : (navigate t s).pins = gotoState t s.pins := rfl
@[simp] theorem navigate_ctx (t : TapState) : (navigate t s).ctx = s.ctx := rfl
@[simp] theorem navigate_source (t : TapState) : (navigate t s).source = s.source := rfl
@[simp] theorem navigate_ctl (t : TapState) : (navigate t s).ctl = s.ctl := rfl

@[simp] theorem readTdi_cfg (n : Nat) (v : List Byte) : (readTdi n v s).cfg = s.cfg := rfl
@[simp] theorem readTdi_pins (n : Nat) (v : List Byte) : (readTdi n v s).pins = s.pins := rfl
@[simp] theorem readTdi_ctx (n : Nat) (v : List Byte) :
    (readTdi n v s).ctx = { s.ctx with tdiBuf := fillVector s.cfg.tdiBytes (ceil8 n) v s.ctx.tdiBuf } := rfl
@[simp] theorem readTdi_source (n : Nat) (v : List Byte) : (readTdi n v s).source = s.source := rfl
@[simp] theorem readTdi_ctl (n : Nat) (v : List Byte) : (readTdi n v s).ctl = s.ctl := rfl

@[simp] theorem readExpected_cfg (n : Nat) (v : List Byte) : (readExpected n v s).cfg = s.cfg := rfl
@[simp] theorem readExpected_pins (n : Nat) (v : List Byte) :
    (readExpected n v s).pins = s.pins := rfl
@[simp] theorem readExpected_ctx (n : Nat) (v : List Byte) :
    (readExpected n v s).ctx = { s.ctx with
      tdoExpected := fillVector s.cfg.cmpBytes (ceil8 n) v s.ctx.tdoExpected } := rfl
@[simp] theorem readExpected_source (n : Nat) (v : List Byte) :
    (readExpected n v s).source = s.source := rfl
@[simp] theorem readExpected_ctl (n : Nat) (v : List Byte) : (readExpected n v s).ctl = s.ctl := rfl

@[simp] theorem readMask_cfg (n : Nat) (v : List Byte) : (readMask n v s).cfg = s.cfg := rfl
@[simp] theorem readMask_pins (n : Nat) (v : List Byte) : (readMask n v s).pins = s.pins := rfl
@[simp] theorem readMask_ctx (n : Nat) (v : List Byte) :
    (readMask n v s).ctx = { s.ctx with tdoMask := fillVector s.cfg.cmpBytes (ceil8 n) v s.ctx.tdoMask } := rfl
@[simp] theorem readMask_source (n : Nat) (v : List Byte) :
    (readMask n v s).source = s.source := rfl
@[simp] theorem readMask_ctl (n : Nat) (v : List Byte) : (readMask n v s).ctl = s.ctl := rfl

@[simp] theorem clearCaptured_cfg (n : Nat) : (clearCaptured n s).cfg = s.cfg := rfl
@[simp] theorem clearCaptured_pins (n : Nat) : (clearCaptured n s).pins = s.pins := rfl
@[simp] theorem clearCaptured_ctx (n : Nat) :
    (clearCaptured n s).ctx = { s.ctx with
      tdoCaptured := clearBytes (min (ceil8 n) s.cfg.cmpBytes) s.ctx.tdoCaptured } := rfl
@[simp] theorem clearCaptured_source (n : Nat) : (clearCaptured n s).source = s.source := rfl
@[simp] theorem clearCaptured_ctl (n : Nat) : (clearCaptured n s).ctl = s.ctl := rfl

@[simp] theorem shiftBit_cfg (tms : Bool) (j : Nat) : (shiftBit tms j s).cfg = s.cfg := rfl
@[simp] theorem shiftBit_pins (tms : Bool) (j : Nat) :
    (shiftBit tms j s).pins = clockFull (bufBit s.ctx.tdiBuf j) tms s.pins := rfl
@[simp] theorem shiftBit_ctx (tms : Bool) (j : Nat) :
    (shiftBit tms j s).ctx = { s.ctx with
      tdoCaptured := setBufBit s.cfg.cmpBytes s.ctx.tdoCaptured j (tdoNow s.pins) } := rfl
@[simp] theorem shiftBit_source (tms : Bool) (j : Nat) : (shiftBit tms j s).source = s.source := rfl
@[simp] theorem shiftBit_ctl (tms : Bool) (j : Nat) : (shiftBit tms j s).ctl = s.ctl := rfl

@[simp] theorem shiftFast_cfg (n : Nat) (exit : Bool) : (shiftFast n exit s).cfg = s.cfg := rfl
@[simp] theorem shiftFast_pins (n : Nat) (exit : Bool) :
    (shiftFast n exit s).pins = (List.range n).foldl (fun p j => fastBit n exit s.ctx.tdiBuf j p) s.pins := rfl
@[simp] theorem shiftFast_ctx (n : Nat) (exit : Bool) : (shiftFast n exit s).ctx = s.ctx := rfl
@[simp] theorem shiftFast_source (n : Nat) (exit : Bool) :
    (shiftFast n exit s).source = s.source := rfl
@[simp] theorem shiftFast_ctl (n : Nat) (exit : Bool) : (shiftFast n exit s).ctl = s.ctl := rfl

/-! The pins. Taking an answer moves nothing but the answers. -/

@[simp] theorem takeTdo_tapState : (takeTdo p).tapState = p.tapState := by unfold takeTdo; split <;> rfl
@[simp] theorem takeTdo_tmsHold : (takeTdo p).tmsHold = p.tmsHold := by unfold takeTdo; split <;> rfl
@[simp] theorem takeTdo_trace : (takeTdo p).trace = p.trace := by unfold takeTdo; split <;> rfl

@[simp] theorem drivePulse_tapState (tdi tms : Bool) : (drivePulse tdi tms p).tapState = p.tapState :=
    takeTdo_tapState p
@[simp] theorem drivePulse_tmsHold (tdi tms : Bool) : (drivePulse tdi tms p).tmsHold = tms := rfl
@[simp] theorem drivePulse_trace (tdi tms : Bool) : (drivePulse tdi tms p).trace = p.trace ++ [.full tdi tms
    (tdoNow p)] := rfl
@[simp] theorem drivePulse_tdoIn (tdi tms : Bool) : (drivePulse tdi tms p).tdoIn = (takeTdo p).tdoIn := rfl
@[simp] theorem drivePulse_freeDraws (tdi tms : Bool) : (drivePulse tdi tms p).freeDraws =
    (takeTdo p).freeDraws := rfl

@[simp] theorem clockFull_tapState (tdi tms : Bool) : (clockFull tdi tms p).tapState = tapNext p.tapState tms := rfl
@[simp] theorem clockFull_tmsHold (tdi tms : Bool) : (clockFull tdi tms p).tmsHold = tms := rfl
@[simp] theorem clockFull_trace (tdi tms : Bool) : (clockFull tdi tms p).trace = p.trace ++ [.full tdi tms
    (tdoNow p)] := rfl
@[simp] theorem clockFull_tdoIn (tdi tms : Bool) : (clockFull tdi tms p).tdoIn = (takeTdo p).tdoIn := rfl
@[simp] theorem clockFull_freeDraws (tdi tms : Bool) : (clockFull tdi tms p).freeDraws = (takeTdo p).freeDraws :=
    rfl

@[simp] theorem clockFast_tapState (tdi : Bool) : (clockFast tdi p).tapState = tapNext p.tapState p.tmsHold := rfl
@[simp] theorem clockFast_tmsHold (tdi : Bool) : (clockFast tdi p).tmsHold = p.tmsHold := rfl
@[simp] theorem clockFast_trace (tdi : Bool) : (clockFast tdi p).trace = p.trace ++ [.fast tdi p.tmsHold] := rfl
@[simp] theorem clockFast_tdoIn (tdi : Bool) : (clockFast tdi p).tdoIn = p.tdoIn := rfl
@[simp] theorem clockFast_freeDraws (tdi : Bool) : (clockFast tdi p).freeDraws = p.freeDraws := rfl

@[simp] theorem settle_tapState : (settle p).tapState = p.tapState := rfl
@[simp] theorem settle_tmsHold : (settle p).tmsHold = p.tmsHold := rfl
@[simp] theorem settle_trace : (settle p).trace = p.trace ++ [.settle] := rfl
@[simp] theorem settle_tdoIn : (settle p).tdoIn = p.tdoIn := rfl
@[simp] theorem settle_freeDraws : (settle p).freeDraws = p.freeDraws := rfl

end Sys2Proof.Machine
end

