-- ==== Sys2Proof/Laws/Pins.lean ====
section
/-!
SUPPORT. Everything a pin operation can do: it adds transactions to the trace, takes the target's answers in order, and
the tracked state and the TMS latch follow what it drove.
-/

namespace Sys2Proof.Machine

@[simp] theorem drivenPins_nil : drivenPins [] = [] := rfl
@[simp] theorem sampledTdo_nil : sampledTdo [] = [] := rfl
@[simp] theorem drivenPins_append (a b : List PinEvent) :
    drivenPins (a ++ b) = drivenPins a ++ drivenPins b := List.filterMap_append
@[simp] theorem sampledTdo_append (a b : List PinEvent) :
    sampledTdo (a ++ b) = sampledTdo a ++ sampledTdo b := List.filterMap_append
@[simp] theorem drivenPins_full (a b c : Bool) : drivenPins [.full a b c] = [(a, b)] := rfl
@[simp] theorem drivenPins_fast (a b : Bool) : drivenPins [.fast a b] = [(a, b)] := rfl
@[simp] theorem drivenPins_settle : drivenPins [.settle] = [] := rfl
@[simp] theorem sampledTdo_full (a b c : Bool) : sampledTdo [.full a b c] = [c] := rfl
@[simp] theorem sampledTdo_fast (a b : Bool) : sampledTdo [.fast a b] = [] := rfl
@[simp] theorem sampledTdo_settle : sampledTdo [.settle] = [] := rfl

@[simp] theorem actions_nil : actions [] = [] := rfl
@[simp] theorem actions_append (a b : List PinEvent) : actions (a ++ b) = actions a ++ actions b := List.map_append
@[simp] theorem actions_full (a b c : Bool) : actions [.full a b c] = [.full a b] := rfl
@[simp] theorem actions_fast (a b : Bool) : actions [.fast a b] = [.fast a b] := rfl
@[simp] theorem actions_settle : actions [.settle] = [.settle] := rfl
@[simp] theorem fullPulses_nil : fullPulses [] = [] := rfl
@[simp] theorem fullPulses_append (a b : List (Bool × Bool)) :
    fullPulses (a ++ b) = fullPulses a ++ fullPulses b := List.map_append

/-- Where every transaction sampled a bit, all of them were full pulses. -/
theorem actions_of_all_sampled {l : List PinEvent} (h : (sampledTdo l).length = l.length) :
    actions l = fullPulses (drivenPins l) := by
  induction l with
  | nil => rfl
  | cons e l ih =>
    have hle : (sampledTdo l).length ≤ l.length := List.length_filterMap_le ..
    cases e with
    | full a b c => exact congrArg (PinAction.full a b :: ·) (ih (Nat.succ.inj h))
    | fast a b => exact absurd (show (sampledTdo l).length = l.length + 1 from h) (by omega)
    | settle => exact absurd (show (sampledTdo l).length = l.length + 1 from h) (by omega)

theorem tapAfter_append (a b : List PinEvent) (start : TapState) :
    tapAfter start (a ++ b) = tapAfter (tapAfter start a) b := by simp [tapAfter]

/-- The TMS value held after the pulses `l`, from `h`. -/
def holdAfter (h : Bool) (l : List (Bool × Bool)) : Bool := (l.getLast?.map Prod.snd).getD h

@[simp] theorem holdAfter_nil (h : Bool) : holdAfter h [] = h := rfl
@[simp] theorem holdAfter_concat (h : Bool) (l : List (Bool × Bool)) (x : Bool × Bool) :
    holdAfter h (l ++ [x]) = x.2 := by simp [holdAfter]

theorem holdAfter_append (h : Bool) (a b : List (Bool × Bool)) :
    holdAfter h (a ++ b) = holdAfter (holdAfter h a) b := by
  induction b using List.reverseRecOn with
  | nil => simp
  | append_singleton b x _ => rw [← List.append_assoc, holdAfter_concat, holdAfter_concat]

/-- `q` is reached from `p` by driving the transactions `more`. -/
structure Drives (p q : Pins) (more : List PinEvent) : Prop where
  trace : q.trace = p.trace ++ more
  tap : q.tapState = tapAfter p.tapState more
  hold : q.tmsHold = holdAfter p.tmsHold (drivenPins more)
  tdoIn : q.tdoIn = p.tdoIn.drop (sampledTdo more).length
  inOrder : ∀ j < (sampledTdo more).length, j < p.tdoIn.length → (sampledTdo more)[j]? = p.tdoIn[j]?

theorem Drives.refl (p : Pins) : Drives p p [] := ⟨by simp, rfl, rfl, by simp, by simp⟩

theorem Drives.trans {p q r : Pins} {a b : List PinEvent} (h : Drives p q a) (k : Drives q r b) :
    Drives p r (a ++ b) where
  trace := by rw [k.trace, h.trace, List.append_assoc]
  tap := by rw [k.tap, h.tap, tapAfter_append]
  hold := by rw [k.hold, h.hold, drivenPins_append, holdAfter_append]
  tdoIn := by rw [k.tdoIn, h.tdoIn, List.drop_drop, sampledTdo_append, List.length_append]
  inOrder := by
    intro j hj hp
    rw [sampledTdo_append] at hj ⊢
    rw [List.length_append] at hj
    by_cases hlt : j < (sampledTdo a).length
    · rw [List.getElem?_append_left hlt]; exact h.inOrder j hlt hp
    · have hge := Nat.not_lt.1 hlt
      rw [List.getElem?_append_right hge, k.inOrder _ (by omega) (by rw [h.tdoIn, List.length_drop]; omega),
        h.tdoIn, List.getElem?_drop, Nat.add_sub_cancel' hge]

/-- A full pulse records the answer of the moment. -/
theorem clockFull_drives (tdi tms : Bool) (p : Pins) :
    Drives p (clockFull tdi tms p) [.full tdi tms (tdoNow p)] where
  trace := by simp
  tap := by simp [tapAfter]
  hold := by simp [holdAfter]
  tdoIn := by cases h : p.tdoIn <;> simp [takeTdo, h]
  inOrder := by
    intro j hj hp
    cases h : p.tdoIn with
    | nil => simp [h] at hp
    | cons b rest => simp at hj; subst hj; simp [tdoNow, h]

theorem clockFast_drives (tdi : Bool) (p : Pins) : Drives p (clockFast tdi p) [.fast tdi p.tmsHold] where
  trace := by simp
  tap := by simp [tapAfter]
  hold := by simp [holdAfter]
  tdoIn := by simp
  inOrder := by simp

theorem settle_drives (p : Pins) : Drives p (settle p) [.settle] where
  trace := by simp
  tap := by simp [tapAfter]
  hold := by simp
  tdoIn := by simp
  inOrder := by simp

/-- What the pulses of a `Drives` do to the tracked TAP. -/
theorem Drives.tapTracked {s t : State} {more : List PinEvent} (h : Drives s.pins t.pins more)
    (hs : TapTracked s) : TapTracked t := by
  refine ⟨fun start => by rw [h.trace, tapAfter_append, hs.1, h.tap], ?_⟩
  rw [h.hold, h.trace, drivenPins_append]
  generalize drivenPins more = l
  induction l using List.reverseRecOn with
  | nil => simpa using hs.2
  | append_singleton l x _ => rw [← List.append_assoc, List.getLast?_concat, holdAfter_concat]; rfl

/-- The graph enters and keeps the shift states on TMS = 0 only, so whoever ends in one holds TMS at 0 (R23, R204). -/
theorem Drives.shift_hold {p q : Pins} {more : List PinEvent} (h : Drives p q more)
    (hp : p.tapState = .shiftDR ∨ p.tapState = .shiftIR → p.tmsHold = false) :
    q.tapState = .shiftDR ∨ q.tapState = .shiftIR → q.tmsHold = false := by
  rw [h.tap, h.hold]; unfold tapAfter
  generalize drivenPins more = l
  induction l using List.reverseRecOn with
  | nil => simpa using hp
  | append_singleton l x _ =>
    rw [holdAfter_concat, List.foldl_append, List.foldl_cons, List.foldl_nil]
    generalize List.foldl _ _ l = a
    generalize x.2 = b
    cases a <;> cases b <;> decide

end Sys2Proof.Machine
end

