-- ==== Sys2Proof/Laws/Tap.lean ====
section
/-!
SUPPORT. What `GotoState`, `Reset` and the run-test cycles drive.
-/

namespace Sys2Proof.Machine

theorem tapDist_self (a : TapState) : tapDist a a = 0 := by cases a <;> decide

/-- One step along the route (R24, R107). -/
theorem tapDist_step (a t : TapState) (h : a ≠ t) :
    tapDist (tapNext a (routeBit a t)) t + 1 = tapDist a t := by
  revert h; cases a <;> cases t <;> decide

theorem tapDist_le_diameter (a t : TapState) : tapDist a t ≤ 8 := by cases a <;> cases t <;> decide

/-- The loop of `GotoState`, given room for the distance: the events it adds are full pulses along the route. -/
theorem gotoLoop_spec (n : Nat) (t : TapState) (p : Pins) (hn : tapDist p.tapState t ≤ n) :
    ∃ tdo : List Bool, tdo.length = tapDist p.tapState t ∧ (gotoLoop n t p).tapState = t ∧
      Drives p (gotoLoop n t p)
        (List.zipWith (fun tms b => PinEvent.full false tms b)
          (routeTms (tapDist p.tapState t) p.tapState t) tdo) := by
  induction n generalizing p with
  | zero =>
    have h0 : p.tapState = t := by
      by_contra h
      have := tapDist_step _ _ h
      omega
    refine ⟨[], by simp; omega, h0, ?_⟩
    simpa [gotoLoop] using Drives.refl p
  | succ n ih =>
    by_cases h : p.tapState = t
    · refine ⟨[], by simp [h, tapDist_self], by simp [gotoLoop, h], ?_⟩
      simpa [gotoLoop, h] using Drives.refl p
    · have hd := tapDist_step _ _ h
      obtain ⟨tdo, hl, ht, hp⟩ := ih (clockFull false (routeBit p.tapState t) p) (by simp; omega)
      refine ⟨tdoNow p :: tdo, by simp [hl]; omega, by simpa [gotoLoop, h] using ht, ?_⟩
      simp only [clockFull_tapState] at hp
      have := (clockFull_drives false (routeBit p.tapState t) p).trans hp
      rw [← hd]
      simpa [gotoLoop, h, routeTms] using this

theorem drivenPins_zipWith_full (tdi : Bool) (tms tdo : List Bool) (h : tdo.length = tms.length) :
    drivenPins (List.zipWith (fun m b => PinEvent.full tdi m b) tms tdo) = tms.map fun m => (tdi, m) := by
  induction tms generalizing tdo with
  | nil => simp
  | cons m tms ih =>
    cases tdo with
    | nil => simp at h
    | cons b tdo =>
      have := ih tdo (by simpa using h)
      simp only [drivenPins] at this
      simp [drivenPins, drivenBy, this]

theorem sampledTdo_zipWith_full (tdi : Bool) (tms tdo : List Bool) (h : tdo.length = tms.length) :
    sampledTdo (List.zipWith (fun m b => PinEvent.full tdi m b) tms tdo) = tdo := by
  induction tms generalizing tdo with
  | nil => cases tdo <;> simp_all
  | cons m tms ih =>
    cases tdo with
    | nil => simp at h
    | cons b tdo =>
      have := ih tdo (by simpa using h)
      simp only [sampledTdo] at this
      simp [sampledTdo, sampledBy, this]

theorem routeTms_length (n : Nat) (a t : TapState) : (routeTms n a t).length = n := by
  induction n generalizing a with
  | zero => rfl
  | succ n ih => simp [routeTms, ih]

/-- What `GotoState(t)` does to the pins. -/
theorem gotoState_drives (t : TapState) (p : Pins) :
    ∃ more, (gotoState t p).tapState = t ∧ Drives p (gotoState t p) more ∧
      drivenPins more = navPins p.tapState t ∧ (sampledTdo more).length = tapDist p.tapState t ∧
      more.length = tapDist p.tapState t := by
  obtain ⟨tdo, hl, ht, hp⟩ := gotoLoop_spec 8 t p (tapDist_le_diameter _ _)
  have hlen := routeTms_length (tapDist p.tapState t) p.tapState t
  refine ⟨_, ht, hp, ?_, ?_, ?_⟩
  · rw [drivenPins_zipWith_full _ _ _ (by rw [hl, hlen])]; rfl
  · rw [sampledTdo_zipWith_full _ _ _ (by rw [hl, hlen]), hl]
  · rw [List.length_zipWith, hl, hlen, min_self]

/-- `GotoState(t)` calls the full pulse alone, along the shortest path (R106). -/
theorem gotoState_actions (t : TapState) (p : Pins) :
    actions (gotoState t p).trace = actions p.trace ++ fullPulses (navPins p.tapState t) := by
  obtain ⟨more, -, hd, hp, hs, hl⟩ := gotoState_drives t p
  rw [hd.trace, actions_append, actions_of_all_sampled (hs.trans hl.symm), hp]

/-- It samples one bit a pulse (R100). -/
theorem gotoState_samples (t : TapState) (p : Pins) :
    (sampledTdo (gotoState t p).trace).length = (sampledTdo p.trace).length + tapDist p.tapState t := by
  obtain ⟨more, -, hd, -, hs, -⟩ := gotoState_drives t p
  rw [hd.trace, sampledTdo_append, List.length_append, hs]

@[simp] theorem gotoState_tapState (t : TapState) (p : Pins) : (gotoState t p).tapState = t :=
  (gotoState_drives t p).choose_spec.1

/-- A state the graph enters on TMS = 0 only is reached by `GotoState` with TMS held at 0, unless no pulse was
driven. -/
theorem gotoLoop_hold (n : Nat) (t : TapState) (p : Pins)
    (h : t = .shiftDR ∨ t = .shiftIR ∨ t = .runTest) (hp : p.tapState = t → p.tmsHold = false) :
    (gotoLoop n t p).tapState = t → (gotoLoop n t p).tmsHold = false := by
  induction n generalizing p with
  | zero => simpa [gotoLoop] using hp
  | succ n ih =>
    by_cases hq : p.tapState = t
    · simpa [gotoLoop, hq] using hp
    · simp only [gotoLoop, hq, if_false]
      refine ih _ fun hn => ?_
      simp only [clockFull_tapState, clockFull_tmsHold] at hn ⊢
      generalize routeBit p.tapState t = b at hn ⊢
      rcases h with rfl | rfl | rfl <;> revert hn hq <;> cases p.tapState <;> cases b <;> decide

theorem gotoState_hold (t : TapState) (p : Pins) (h : t = .shiftDR ∨ t = .shiftIR ∨ t = .runTest)
    (hp : p.tapState = t → p.tmsHold = false) : (gotoState t p).tmsHold = false :=
  gotoLoop_hold 8 t p h hp (gotoState_tapState t p)

/-- What the untracked pulses of `Reset()` do to the pins. -/
theorem driveReset_spec (n : Nat) (p : Pins) :
    ∃ tdo : List Bool, tdo.length = n ∧
      (driveReset n p).trace = p.trace ++ tdo.map (fun b => PinEvent.full false true b) ∧
      (driveReset n p).tmsHold = (if n = 0 then p.tmsHold else true) ∧
      (driveReset n p).tdoIn = p.tdoIn.drop n := by
  induction n generalizing p with
  | zero => exact ⟨[], by simp [driveReset]⟩
  | succ n ih =>
    obtain ⟨tdo, hl, ht, hh, hi⟩ := ih (drivePulse false true p)
    refine ⟨tdoNow p :: tdo, by simp [hl], by simp [driveReset, ht], ?_, ?_⟩
    · by_cases hn : n = 0 <;> simp [driveReset, hh, hn]
    · cases h : p.tdoIn <;> simp [driveReset, hi, takeTdo, h]

end Sys2Proof.Machine
end

