-- ==== Sys2Proof/Laws/Shift.lean ====
section
/-!
SUPPORT. What the two shift engines, the run-test cycles and `PostScan` do, each said once.
-/

namespace Sys2Proof.Machine

/-- The pulses of the first `k` bits of a shift of `n` bits. -/
def pinsUpTo (n : Nat) (exit : Bool) (bit : Nat → Bool) (k : Nat) : List (Bool × Bool) :=
  (List.range k).map fun j => (bit j, exit && j + 1 == n)

theorem pinsUpTo_succ (n : Nat) (exit : Bool) (bit : Nat → Bool) (k : Nat) :
    pinsUpTo n exit bit (k + 1) = pinsUpTo n exit bit k ++ [(bit k, exit && k + 1 == n)] := by
  simp [pinsUpTo, List.range_succ]

theorem shiftPins_eq (n : Nat) (exit : Bool) (bit : Nat → Bool) :
    shiftPins n exit bit = pinsUpTo n exit bit n := rfl

/-- The captured bytes after the answers `bits` to the first `k` bits. -/
def captureUpTo (cap : Nat) (bits : List Bool) (buf : List Byte) (k : Nat) : List Byte :=
  (List.range k).foldl (fun b j => setBufBit cap b j (bits.getD j false)) buf

theorem captureUpTo_append (cap : Nat) (bits more : List Bool) (buf : List Byte) (k : Nat)
    (h : k ≤ bits.length) : captureUpTo cap (bits ++ more) buf k = captureUpTo cap bits buf k := by
  induction k with
  | zero => rfl
  | succ k ih =>
    simp only [captureUpTo, List.range_succ, List.foldl_append, List.foldl_cons, List.foldl_nil] at ih ⊢
    rw [ih (by omega), List.getD_append _ _ _ _ (by omega)]

/-- A checked shift changes the pins and `tdo_captured` only: it drives its bits in order as full pulses and captures
the answers to them. -/
theorem shiftChecked_spec (n : Nat) (exit : Bool) (s : State) :
    ∃ more, Drives s.pins (shiftChecked n exit s).pins more ∧
      drivenPins more = shiftPins n exit (bufBit s.ctx.tdiBuf) ∧
      (sampledTdo more).length = n ∧ more.length = n ∧
      (shiftChecked n exit s).ctx = { s.ctx with
        tdoCaptured := captureUpTo s.cfg.cmpBytes (sampledTdo more)
          (clearBytes (min (ceil8 n) s.cfg.cmpBytes) s.ctx.tdoCaptured) n } ∧
      SamePlatform s (shiftChecked n exit s) := by
  suffices H : ∀ k, ∃ more,
      let r := (List.range k).foldl (fun r j => shiftBit (exit && j + 1 == n) j r) (clearCaptured n s)
      Drives s.pins r.pins more ∧ drivenPins more = pinsUpTo n exit (bufBit s.ctx.tdiBuf) k ∧
        (sampledTdo more).length = k ∧ more.length = k ∧
        r.ctx = { s.ctx with
          tdoCaptured := captureUpTo s.cfg.cmpBytes (sampledTdo more)
            (clearBytes (min (ceil8 n) s.cfg.cmpBytes) s.ctx.tdoCaptured) k } ∧
        SamePlatform s r from H n
  intro k
  induction k with
  | zero => exact ⟨[], Drives.refl _, rfl, rfl, rfl, rfl, rfl, rfl, rfl⟩
  | succ k ih =>
    obtain ⟨more, hd, hp, hs, hm, hc, h1, h2, h3⟩ := ih
    simp only [List.range_succ, List.foldl_append, List.foldl_cons, List.foldl_nil]
    generalize (List.range k).foldl _ _ = r at *
    refine ⟨_, hd.trans (clockFull_drives (bufBit r.ctx.tdiBuf k) (exit && k + 1 == n) r.pins), ?_, ?_, ?_,
      ?_, h1, h2, h3⟩
    · simp [hp, pinsUpTo_succ, hc]
    · simp [hs]
    · simp [hm]
    · have hk : captureUpTo s.cfg.cmpBytes (sampledTdo more ++ [tdoNow r.pins])
          (clearBytes (min (ceil8 n) s.cfg.cmpBytes) s.ctx.tdoCaptured) k = _ :=
        captureUpTo_append _ _ _ _ _ (by omega)
      simp only [captureUpTo] at hk
      simp only [shiftBit_ctx, hc, h1, sampledTdo_append, sampledTdo_full, captureUpTo, List.range_succ,
        List.foldl_append, List.foldl_cons, List.foldl_nil, hk]
      rw [List.getD_append_right _ _ _ _ (by omega), hs]
      simp

/-- A checked shift calls the full pulse alone, once a bit (R121). -/
theorem shiftChecked_actions (n : Nat) (exit : Bool) (s : State) :
    actions (shiftChecked n exit s).pins.trace =
      actions s.pins.trace ++ fullPulses (shiftPins n exit (bufBit s.ctx.tdiBuf)) := by
  obtain ⟨more, hd, hp, hs, hl, -⟩ := shiftChecked_spec n exit s
  rw [hd.trace, actions_append, actions_of_all_sampled (hs.trans hl.symm), hp]

/-- It samples one bit a pulse. -/
theorem shiftChecked_samples (n : Nat) (exit : Bool) (s : State) :
    (sampledTdo (shiftChecked n exit s).pins.trace).length = (sampledTdo s.pins.trace).length + n := by
  obtain ⟨more, hd, -, hs, -⟩ := shiftChecked_spec n exit s
  rw [hd.trace, sampledTdo_append, List.length_append, hs]

/-- A checked shift of some bits in ShiftDR or ShiftIR leaves TMS at `exit`; of none, as it was. -/
theorem holdAfter_shiftPins (n : Nat) (exit h : Bool) (bit : Nat → Bool) :
    holdAfter h (shiftPins n exit bit) = if n = 0 then h else exit := by
  cases n with
  | zero => simp [shiftPins]
  | succ n => rw [shiftPins_eq, pinsUpTo_succ]; simp

/-- Bits shifted in a shift state keep it, but for the last one when it exits (R23, R124). -/
theorem tap_after_shiftPins (n : Nat) (exit : Bool) (bit : Nat → Bool) (a : TapState)
    (ha : a = .shiftDR ∨ a = .shiftIR) :
    (shiftPins n exit bit).foldl (fun x p => tapNext x p.2) a =
      if exit = true ∧ n ≠ 0 then tapNext a true else a := by
  have keep : tapNext a false = a := by rcases ha with rfl | rfl <;> rfl
  have low : ∀ k, k < n → (pinsUpTo n exit bit k).foldl (fun x p => tapNext x p.2) a = a := by
    intro k hk
    induction k with
    | zero => rfl
    | succ k ih =>
      have : (k + 1 == n) = false := by simp; omega
      simp [pinsUpTo_succ, ih (by omega), this, keep]
  cases n with
  | zero => simp [shiftPins]
  | succ n =>
    rw [shiftPins_eq, pinsUpTo_succ, List.foldl_append, low n (by omega)]
    cases exit <;> simp [keep]

theorem tapAfter_of_driven {a : TapState} {more : List PinEvent} {l : List (Bool × Bool)}
    (h : drivenPins more = l) : tapAfter a more = l.foldl (fun x p => tapNext x p.2) a := by
  rw [tapAfter, h]

/-- A fast shift with TMS held at 0 drives the same pins as the checked one and samples the last bit only. -/
theorem shiftFast_spec (n : Nat) (exit : Bool) (s : State) (h : s.pins.tmsHold = false) :
    ∃ more, Drives s.pins (shiftFast n exit s).pins more ∧
      drivenPins more = shiftPins n exit (bufBit s.ctx.tdiBuf) ∧
      (sampledTdo more).length = min 1 n ∧ more.length = n := by
  suffices H : ∀ k ≤ n, ∃ more,
      let q := (List.range k).foldl (fun p j => fastBit n exit s.ctx.tdiBuf j p) s.pins
      Drives s.pins q more ∧ drivenPins more = pinsUpTo n exit (bufBit s.ctx.tdiBuf) k ∧
        (sampledTdo more).length = (if k < n then 0 else min 1 n) ∧ more.length = k ∧
        (k < n → q.tmsHold = false) by
    obtain ⟨more, h1, h2, h3, h4, _⟩ := H n le_rfl
    exact ⟨more, h1, h2, by simpa using h3, h4⟩
  intro k hk
  induction k with
  | zero => exact ⟨[], Drives.refl _, rfl, by simp; omega, rfl, fun _ => h⟩
  | succ k ih =>
    obtain ⟨more, hd, hp, hs, hm, hh⟩ := ih (by omega)
    simp only [List.range_succ, List.foldl_append, List.foldl_cons, List.foldl_nil]
    generalize (List.range k).foldl _ _ = q at *
    have hq := hh (by omega)
    by_cases hlt : k + 1 < n
    · have hf : (k + 1 == n) = false := by simp; omega
      have hd' := hd.trans (clockFast_drives (bufBit s.ctx.tdiBuf k) q)
      simp only [fastBit, hlt, if_true]
      refine ⟨_, hd', ?_, ?_, ?_, fun _ => hq⟩
      · simp [hp, pinsUpTo_succ, hq, hf]
      · rw [sampledTdo_append, sampledTdo_fast, List.append_nil, hs, if_pos (by omega)]
      · simp [hm]
    · have hf : (k + 1 == n) = true := by simp; omega
      have hd' := hd.trans (clockFull_drives (bufBit s.ctx.tdiBuf k) exit q)
      simp only [fastBit, hlt, if_false]
      refine ⟨_, hd', ?_, ?_, ?_, fun hn => hn.elim⟩
      · simp [hp, pinsUpTo_succ, hf]
      · rw [sampledTdo_append, List.length_append, hs, if_pos (by omega)]
        simp; omega
      · simp [hm]

/-- With TMS held at 0 a fast shift calls the fast pulse for every bit but the last and the full one for that (R126). -/
theorem shiftFast_actions (n : Nat) (exit : Bool) (s : State) (h : s.pins.tmsHold = false) :
    actions (shiftFast n exit s).pins.trace =
      actions s.pins.trace ++ fastShiftActions n exit (bufBit s.ctx.tdiBuf) := by
  rw [shiftFast_pins]
  cases n with
  | zero => simp [fastShiftActions]
  | succ n =>
    suffices H : ∀ k ≤ n,
        let q := (List.range k).foldl (fun p j => fastBit (n + 1) exit s.ctx.tdiBuf j p) s.pins
        actions q.trace = actions s.pins.trace ++
          ((List.range k).map fun j => PinAction.fast (bufBit s.ctx.tdiBuf j) false) ∧ q.tmsHold = false by
      rw [List.range_succ, List.foldl_append, List.foldl_cons, List.foldl_nil, fastBit,
        if_neg (Nat.lt_irrefl _), clockFull_trace, actions_append, (H n le_rfl).1]
      simp [fastShiftActions]
    intro k hk
    induction k with
    | zero => simpa using h
    | succ k ih =>
      obtain ⟨h1, h2⟩ := ih (by omega)
      simp only [List.range_succ, List.foldl_append, List.foldl_cons, List.foldl_nil, List.map_append]
      generalize (List.range k).foldl _ _ = q at *
      simp [fastBit, hk, h1, h2]

/-- The run-test cycles: pairs of a full pulse with TDI = 0, TMS = 0 and a `Settle`. -/
theorem runTestCycles_spec (n : Nat) (p : Pins) :
    ∃ tdo : List Bool, tdo.length = n ∧
      Drives p (runTestCycles n p) (tdo.flatMap fun b => [PinEvent.full false false b, PinEvent.settle]) := by
  induction n generalizing p with
  | zero => exact ⟨[], rfl, Drives.refl p⟩
  | succ n ih =>
    obtain ⟨tdo, hl, hd⟩ := ih (settle (clockFull false false p))
    refine ⟨tdoNow p :: tdo, by simp [hl], ?_⟩
    have := ((clockFull_drives false false p).trans (settle_drives _)).trans hd
    simpa [runTestCycles] using this

theorem drivenPins_cycles (tdo : List Bool) :
    drivenPins (tdo.flatMap fun b => [PinEvent.full false false b, PinEvent.settle]) =
      List.replicate tdo.length (false, false) := by
  induction tdo with
  | nil => rfl
  | cons b tdo ih =>
    rw [List.flatMap_cons, drivenPins_append, ih]; rfl

theorem actions_cycles (tdo : List Bool) :
    actions (tdo.flatMap fun b => [PinEvent.full false false b, PinEvent.settle]) =
      (List.replicate tdo.length [PinAction.full false false, .settle]).flatten := by
  induction tdo with
  | nil => rfl
  | cons b tdo ih => rw [List.flatMap_cons, actions_append, ih]; rfl

theorem sampledTdo_cycles (tdo : List Bool) :
    sampledTdo (tdo.flatMap fun b => [PinEvent.full false false b, PinEvent.settle]) = tdo := by
  induction tdo with
  | nil => rfl
  | cons b tdo ih => rw [List.flatMap_cons, sampledTdo_append, ih]; rfl

theorem foldl_cycles (n : Nat) :
    (List.replicate n (false, false)).foldl (fun x p => tapNext x p.2) TapState.runTest = .runTest := by
  induction n with
  | zero => rfl
  | succ n ih => exact ih

theorem postScan_idle (e : TapState) (s : State) (h : s.ctx.pendingRuntest = 0) :
    postScan e s = navigate e s := if_pos h

theorem postScan_pending (e : TapState) (s : State) (h : s.ctx.pendingRuntest ≠ 0) :
    postScan e s =
      { s with
        pins := runTestCycles s.ctx.pendingRuntest.toNat (gotoState .runTest s.pins)
        ctx := { s.ctx with pendingRuntest := 0 } } := if_neg h

/-- What `PostScan` does (R146): the pins it drives, where the TAP ends, and the one register it may clear. -/
theorem postScan_spec (e : TapState) (s : State) :
    ∃ more, Drives s.pins (postScan e s).pins more ∧
      drivenPins more = postScanPins s.pins.tapState e s.ctx.pendingRuntest.toNat ∧
      (postScan e s).pins.tapState = postScanState e s.ctx.pendingRuntest.toNat ∧
      (postScan e s).ctx = { s.ctx with pendingRuntest := 0 } ∧ SamePlatform s (postScan e s) := by
  by_cases h : s.ctx.pendingRuntest = 0
  · obtain ⟨more, ht, hd, hp, -, -⟩ := gotoState_drives e s.pins
    rw [postScan_idle e s h]
    refine ⟨more, hd, ?_, ?_, ?_, rfl, rfl, rfl⟩
    · simp [postScanPins, h, hp]
    · simp [postScanState, h]
    · rw [navigate_ctx, ← h]
  · have hn : s.ctx.pendingRuntest.toNat ≠ 0 := fun h0 => h (BitVec.eq_of_toNat_eq (by simpa using h0))
    obtain ⟨more, ht, hd, hp, -, -⟩ := gotoState_drives .runTest s.pins
    obtain ⟨tdo, hl, hc⟩ := runTestCycles_spec s.ctx.pendingRuntest.toNat (gotoState .runTest s.pins)
    rw [postScan_pending e s h]
    refine ⟨_, hd.trans hc, ?_, ?_, rfl, rfl, rfl, rfl⟩
    · rw [drivenPins_append, drivenPins_cycles, hp, hl, postScanPins, if_neg hn]
    · rw [postScanState, if_neg hn]
      show (runTestCycles _ _).tapState = _
      rw [hc.tap, tapAfter_of_driven (drivenPins_cycles tdo), ht, foldl_cycles]

/-- What `PostScan` calls, the `Settle` after each run-test pulse included, and how many bits it samples (R146). -/
theorem postScan_actions (e : TapState) (s : State) :
    actions (postScan e s).pins.trace = actions s.pins.trace ++
        postScanActions s.pins.tapState e s.ctx.pendingRuntest.toNat ∧
      (sampledTdo (postScan e s).pins.trace).length = (sampledTdo s.pins.trace).length +
        postScanSamples s.pins.tapState e s.ctx.pendingRuntest.toNat := by
  by_cases h : s.ctx.pendingRuntest = 0
  · rw [postScan_idle e s h, navigate_pins, gotoState_actions, gotoState_samples]
    simp [postScanActions, postScanSamples, h]
  · have hn : s.ctx.pendingRuntest.toNat ≠ 0 := fun h0 => h (BitVec.eq_of_toNat_eq (by simpa using h0))
    obtain ⟨tdo, hl, hc⟩ := runTestCycles_spec s.ctx.pendingRuntest.toNat (gotoState .runTest s.pins)
    rw [postScan_pending e s h]
    simp only [hc.trace, actions_append, sampledTdo_append, List.length_append, gotoState_actions, gotoState_samples,
      actions_cycles, sampledTdo_cycles, hl, postScanActions, postScanSamples, if_neg hn, List.append_assoc,
      Nat.add_assoc, and_self]

end Sys2Proof.Machine
end

