-- ==== Sys2Proof/Laws/Operands.lean ====
section
/-!
SUPPORT. The small lemmas of the buffers: no operation changes a buffer's length, and what setting one bit does.
-/

namespace Sys2Proof.Machine

@[simp] theorem fillVector_length (cap nb : Nat) (v buf : List Byte) :
    (fillVector cap nb v buf).length = buf.length := by
  induction nb generalizing v buf with
  | zero => rfl
  | succ k ih =>
    cases v with
    | nil => rfl
    | cons b v => rw [fillVector, ih]; split <;> simp

@[simp] theorem clearBytes_length (k : Nat) (buf : List Byte) : (clearBytes k buf).length = buf.length := by
  induction k generalizing buf with
  | zero => rfl
  | succ k ih => cases buf <;> simp [clearBytes, ih]

@[simp] theorem setBufBit_length (cap : Nat) (buf : List Byte) (j : Nat) (b : Bool) :
    (setBufBit cap buf j b).length = buf.length := by
  unfold setBufBit; split <;> simp

@[simp] theorem captureUpTo_length (cap : Nat) (bits : List Bool) (buf : List Byte) (k : Nat) :
    (captureUpTo cap bits buf k).length = buf.length := by
  induction k with
  | zero => rfl
  | succ k ih =>
    simp only [captureUpTo, List.range_succ, List.foldl_append, List.foldl_cons, List.foldl_nil,
      setBufBit_length] at ih ⊢
    exact ih

/-- The bits of a byte with one bit replaced. -/
theorem putBit_getLsbD (x : Byte) (i j : Nat) (b : Bool) (hj : j < 8) :
    (putBit x i b).getLsbD j = if j = i then b else x.getLsbD j := by
  have ht : (BitVec.twoPow 8 i).getLsbD j = decide (j = i) := by
    rw [BitVec.getLsbD_twoPow]
    by_cases h : j = i
    · subst h; simp [hj]
    · simp [h, Ne.symm h]
  unfold putBit
  cases b
  · simp only [Bool.false_eq_true, if_false, BitVec.getLsbD_and, BitVec.getLsbD_not, ht, hj, decide_true,
      Bool.true_and]
    by_cases h : j = i <;> simp [h]
  · simp only [if_true, BitVec.getLsbD_or, ht]
    by_cases h : j = i <;> simp [h]

/-- The bits of a buffer with one bit replaced. -/
theorem bufBit_setBufBit (cap : Nat) (buf : List Byte) (j k : Nat) (b : Bool) (hj : j / 8 < buf.length) :
    bufBit (setBufBit cap buf j b) k = if j / 8 < cap ∧ k = j then b else bufBit buf k := by
  unfold setBufBit
  by_cases hc : j / 8 < cap
  · simp only [hc, if_true, true_and, bufBit]
    by_cases hk : k / 8 = j / 8
    · rw [hk, List.getD_eq_getElem?_getD, List.getElem?_set_self hj]
      simp only [Option.getD_some]
      rw [putBit_getLsbD _ _ _ _ (Nat.mod_lt _ (by decide))]
      by_cases hm : k % 8 = j % 8
      · have : k = j := by omega
        simp [this]
      · have : k ≠ j := fun h => hm (by rw [h])
        simp [hm, this, List.getD_eq_getElem?_getD]
    · have : k ≠ j := fun h => hk (by rw [h])
      rw [List.getD_eq_getElem?_getD, List.getElem?_set_ne (Ne.symm hk)]
      simp [this, List.getD_eq_getElem?_getD]
  · simp [hc]

/-- The bytes of a buffer whose first `k` bytes were cleared. -/
theorem clearBytes_getD (k i : Nat) (buf : List Byte) :
    (clearBytes k buf).getD i 0 = if i < k then 0 else buf.getD i 0 := by
  induction k generalizing buf i with
  | zero => simp [clearBytes]
  | succ k ih =>
    cases buf with
    | nil => simp [clearBytes]
    | cons b buf =>
      cases i with
      | zero => simp [clearBytes]
      | succ i =>
        simp only [clearBytes, List.getD_cons_succ, ih, Nat.succ_lt_succ_iff]

end Sys2Proof.Machine
end

