-- ==== Sys2Proof/Laws/Exec.lean ====
section
/-!
SUPPORT. What every instruction does alike, said once: configuration, byte source and the host's calls stay, buffers keep
their sizes, and the pins are only driven.
-/

namespace Sys2Proof.Machine

/-- What a part of an instruction may do to the machine around its own registers. -/
structure Quiet (s t : State) : Prop where
  cfg : t.cfg = s.cfg
  source : t.source = s.source
  calls : t.ctl.calls = s.ctl.calls
  started : t.ctl.started = s.ctl.started
  drives : ∃ more, Drives s.pins t.pins more
  tdiBuf : t.ctx.tdiBuf.length = s.ctx.tdiBuf.length
  tdoExpected : t.ctx.tdoExpected.length = s.ctx.tdoExpected.length
  tdoMask : t.ctx.tdoMask.length = s.ctx.tdoMask.length
  tdoCaptured : t.ctx.tdoCaptured.length = s.ctx.tdoCaptured.length

theorem Quiet.trans {s t u : State} (h : Quiet s t) (k : Quiet t u) : Quiet s u where
  cfg := k.cfg.trans h.cfg
  source := k.source.trans h.source
  calls := k.calls.trans h.calls
  started := k.started.trans h.started
  drives := by
    obtain ⟨a, ha⟩ := h.drives
    obtain ⟨b, hb⟩ := k.drives
    exact ⟨_, ha.trans hb⟩
  tdiBuf := k.tdiBuf.trans h.tdiBuf
  tdoExpected := k.tdoExpected.trans h.tdoExpected
  tdoMask := k.tdoMask.trans h.tdoMask
  tdoCaptured := k.tdoCaptured.trans h.tdoCaptured

theorem Quiet.refl (s : State) : Quiet s s := ⟨rfl, rfl, rfl, rfl, ⟨_, Drives.refl _⟩, rfl, rfl, rfl, rfl⟩

theorem finish_quiet (o : RunOutcome) (s : State) : Quiet s (finish o s) :=
  ⟨rfl, rfl, rfl, rfl, ⟨_, Drives.refl _⟩, rfl, rfl, rfl, rfl⟩

theorem raiseFault_quiet (r : ModelFault) (s : State) : Quiet s (raiseFault r s) :=
  ⟨rfl, rfl, rfl, rfl, ⟨_, Drives.refl _⟩, rfl, rfl, rfl, rfl⟩

theorem readTdi_quiet (n : Nat) (v : List Byte) (s : State) : Quiet s (readTdi n v s) :=
  ⟨rfl, rfl, rfl, rfl, ⟨_, Drives.refl _⟩, by simp, rfl, rfl, rfl⟩

theorem readExpected_quiet (n : Nat) (v : List Byte) (s : State) : Quiet s (readExpected n v s) :=
  ⟨rfl, rfl, rfl, rfl, ⟨_, Drives.refl _⟩, rfl, by simp, rfl, rfl⟩

theorem readMask_quiet (n : Nat) (v : List Byte) (s : State) : Quiet s (readMask n v s) :=
  ⟨rfl, rfl, rfl, rfl, ⟨_, Drives.refl _⟩, rfl, rfl, by simp, rfl⟩

theorem navigate_quiet (u : TapState) (s : State) : Quiet s (navigate u s) := by
  obtain ⟨more, -, hd, -⟩ := gotoState_drives u s.pins
  exact ⟨rfl, rfl, rfl, rfl, ⟨_, hd⟩, rfl, rfl, rfl, rfl⟩

theorem shiftChecked_quiet (n : Nat) (exit : Bool) (s : State) : Quiet s (shiftChecked n exit s) := by
  obtain ⟨more, hd, -, -, -, hc, h1, h2, h3⟩ := shiftChecked_spec n exit s
  refine ⟨h1, h2, by rw [h3], by rw [h3], ⟨_, hd⟩, ?_, ?_, ?_, ?_⟩ <;> rw [hc]
  simp

/-- A fast shift, whatever TMS is held. -/
theorem shiftFast_drives (n : Nat) (exit : Bool) (s : State) :
    ∃ more, Drives s.pins (shiftFast n exit s).pins more := by
  rw [shiftFast_pins]
  generalize List.range n = l
  induction l using List.reverseRecOn with
  | nil => exact ⟨_, Drives.refl _⟩
  | append_singleton l j ih =>
    obtain ⟨more, hd⟩ := ih
    rw [List.foldl_append, List.foldl_cons, List.foldl_nil]
    unfold fastBit at hd ⊢
    split
    · exact ⟨_, hd.trans (clockFast_drives _ _)⟩
    · exact ⟨_, hd.trans (clockFull_drives _ _ _)⟩

theorem shiftFast_quiet (n : Nat) (exit : Bool) (s : State) : Quiet s (shiftFast n exit s) :=
  ⟨rfl, rfl, rfl, rfl, shiftFast_drives n exit s, rfl, rfl, rfl, rfl⟩

theorem postScan_quiet (e : TapState) (s : State) : Quiet s (postScan e s) := by
  obtain ⟨more, hd, -, -, hc, h1, h2, h3⟩ := postScan_spec e s
  refine ⟨h1, h2, by rw [h3], by rw [h3], ⟨_, hd⟩, ?_, ?_, ?_, ?_⟩ <;> rw [hc]

theorem afterCompare_quiet (n : Nat) (f : State → State) (s : State) (h : Quiet s (f s)) :
    Quiet s (afterCompare n f s) := by
  unfold afterCompare; split
  · exact h
  · exact finish_quiet _ _

theorem inShiftDR_quiet (f : State → State) (s : State) (h : Quiet s (f s)) : Quiet s (inShiftDR f s) := by
  unfold inShiftDR; split
  · exact h
  · exact raiseFault_quiet _ _

/-- Where the byte source is asked for a byte it does not have, the run ends or the step stops. -/
theorem sourceEnd_next {s t : State} (h : sourceEnd s = .next t) :
    s.source.tail = .eos ∧ t = finish .exhausted s := by
  unfold sourceEnd at h; split at h
  · rename_i ht; cases h; exact ⟨ht, rfl⟩
  all_goals cases h

/-- What reading a vector operand can lead to: the action, or the end of the run at the end of the source. -/
theorem whenWhole_next {n : Nat} {v : List Byte} {act : State → StepResult} {s t : State}
    (h : whenWhole n v act s = .next t) :
    (ceil8 n ≤ v.length ∧ act s = .next t) ∨
      (v.length < ceil8 n ∧ s.source.tail = .eos ∧ t = finish .exhausted s) := by
  unfold whenWhole at h; split at h
  · exact .inl ⟨‹_›, h⟩
  · exact .inr ⟨Nat.not_le.1 ‹_›, sourceEnd_next h⟩

theorem whenWhole_quiet {n : Nat} {v : List Byte} {act : State → StepResult} {s t : State}
    (h : whenWhole n v act s = .next t) (ha : act s = .next t → Quiet s t) : Quiet s t := by
  rcases whenWhole_next h with ⟨-, h⟩ | ⟨-, -, rfl⟩
  · exact ha h
  · exact finish_quiet _ _

theorem withTdi_quiet {n : Nat} {v : List Byte} {act : State → StepResult} {s t : State}
    (h : withTdi n v act s = .next t) (ha : act (readTdi n v s) = .next t → Quiet (readTdi n v s) t) :
    Quiet s t := (readTdi_quiet n v s).trans (whenWhole_quiet h ha)

theorem withTdiAndExpected_quiet {v e : List Byte} {act : State → StepResult} {s t : State}
    (h : withTdiAndExpected v e act s = .next t) (ha : ∀ r, act r = .next t → Quiet r t) : Quiet s t :=
  withTdi_quiet h fun h => (readExpected_quiet ..).trans (whenWhole_quiet h (ha _))

/-- What every instruction does alike. -/
theorem exec_quiet {i : Instr} {s t : State} (h : exec i s = .next t) : Quiet s t := by
  cases i <;> simp only [exec] at h
  case xcomplete => cases h; exact finish_quiet _ _
  case xtdomask mask =>
    exact (readMask_quiet ..).trans (whenWhole_quiet h fun h => by cases h; exact .refl _)
  case xsir len tdi =>
    unfold execXsir irScan at h; split at h
    · cases h; exact finish_quiet _ _
    · refine withTdi_quiet h fun h => ?_
      cases h
      exact (navigate_quiet ..).trans ((shiftChecked_quiet ..).trans (postScan_quiet ..))
  case xsir2 len tdi =>
    unfold execXsir2 irScan at h; split at h
    · cases h; exact finish_quiet _ _
    · refine withTdi_quiet h fun h => ?_
      cases h
      exact (navigate_quiet ..).trans ((shiftChecked_quiet ..).trans (postScan_quiet ..))
  case xsdr tdi =>
    refine withTdi_quiet h fun h => ?_
    cases h
    exact (navigate_quiet ..).trans ((shiftChecked_quiet ..).trans (postScan_quiet ..))
  case xruntest count => cases h; exact ⟨rfl, rfl, rfl, rfl, ⟨_, Drives.refl _⟩, rfl, rfl, rfl, rfl⟩
  case xrepeat count => cases h; exact .refl _
  case xsdrsize size =>
    unfold execXsdrsize at h; split at h <;> cases h
    · exact finish_quiet _ _
    · exact ⟨rfl, rfl, rfl, rfl, ⟨_, Drives.refl _⟩, rfl, rfl, rfl, rfl⟩
  case xsdrtdo tdi tdo =>
    refine withTdiAndExpected_quiet h fun r h => ?_
    cases h
    exact (navigate_quiet ..).trans
      ((shiftChecked_quiet ..).trans (afterCompare_quiet _ _ _ (postScan_quiet ..)))
  case xsdrb tdi =>
    refine withTdi_quiet h fun h => ?_
    cases h
    exact (navigate_quiet ..).trans (shiftFast_quiet ..)
  case xsdrc tdi =>
    refine withTdi_quiet h fun h => ?_
    cases h
    exact inShiftDR_quiet _ _ (shiftFast_quiet ..)
  case xsdre tdi =>
    refine withTdi_quiet h fun h => ?_
    cases h
    exact inShiftDR_quiet _ _ ((shiftFast_quiet ..).trans (navigate_quiet ..))
  case xsdrtdob tdi tdo =>
    refine withTdiAndExpected_quiet h fun r h => ?_
    cases h
    exact (navigate_quiet ..).trans ((shiftChecked_quiet ..).trans (afterCompare_quiet _ _ _ (.refl _)))
  case xsdrtdoc tdi tdo =>
    refine withTdiAndExpected_quiet h fun r h => ?_
    cases h
    exact inShiftDR_quiet _ _ ((shiftChecked_quiet ..).trans (afterCompare_quiet _ _ _ (.refl _)))
  case xsdrtdoe tdi tdo =>
    refine withTdiAndExpected_quiet h fun r h => ?_
    cases h
    exact inShiftDR_quiet _ _
      ((shiftChecked_quiet ..).trans (afterCompare_quiet _ _ _ (navigate_quiet ..)))
  case xstate b =>
    unfold execXstate at h; split at h <;> cases h
    · exact navigate_quiet _ _
    · exact raiseFault_quiet _ _
  case xendir flag => cases h; exact ⟨rfl, rfl, rfl, rfl, ⟨_, Drives.refl _⟩, rfl, rfl, rfl, rfl⟩
  case xenddr flag => cases h; exact ⟨rfl, rfl, rfl, rfl, ⟨_, Drives.refl _⟩, rfl, rfl, rfl, rfl⟩

end Sys2Proof.Machine
end

