-- ==== Sys2Proof/Laws/Memory.lean ====
section
/-!
SUPPORT. The byte stream as memory: reading after writing, and every operation keeps the canonical form.
-/

namespace Sys2Proof.Machine

/-- A write is read back at its offset and leaves every other offset alone. -/
theorem Memory.read_write (m : Memory) (a x : Nat) (b : Byte) (h : Memory.wf m) :
    Memory.read (Memory.write m a b) x = if x = a then some b else Memory.read m x := by
  induction m with
  | nil => simp [Memory.write, Memory.read, eq_comm]
  | cons c rest ih =>
    obtain ⟨k, v⟩ := c
    have hk := (List.pairwise_cons.1 h).1
    have ih := ih (List.pairwise_cons.1 h).2
    rcases lt_trichotomy a k with hlt | rfl | hgt
    · simp [Memory.write, Memory.read, hlt, eq_comm]
    · simp only [Memory.write, lt_irrefl, if_false, if_true, Memory.read]
      by_cases hx : a = x <;> simp [hx, eq_comm]
    · simp only [Memory.write, Nat.not_lt.2 hgt.le, if_false, hgt.ne', Memory.read, ih]
      by_cases hx : k = x
      · subst hx; simp [hgt.ne]
      · simp [hx]

/-- Every offset of a written memory is the written one or was there before. -/
theorem Memory.mem_write (m : Memory) (a : Nat) (b : Byte) (c : Host.Cell)
    (h : c ∈ Memory.write m a b) : c.1 = a ∨ c ∈ m := by
  induction m with
  | nil => simp_all [Memory.write]
  | cons d rest ih =>
    obtain ⟨k, v⟩ := d
    simp only [Memory.write] at h
    split at h
    · rcases List.mem_cons.1 h with rfl | h
      · exact .inl rfl
      · exact .inr h
    · split at h
      · rcases List.mem_cons.1 h with rfl | h
        · exact .inl rfl
        · exact .inr (List.mem_cons_of_mem _ h)
      · rcases List.mem_cons.1 h with rfl | h
        · exact .inr (List.mem_cons_self ..)
        · exact (ih h).imp_right (List.mem_cons_of_mem _)

/-- A write keeps the canonical form. -/
theorem Memory.write_wf (m : Memory) (a : Nat) (b : Byte) (h : Memory.wf m) :
    Memory.wf (Memory.write m a b) := by
  induction m with
  | nil => simp [Memory.write]
  | cons d rest ih =>
    obtain ⟨k, v⟩ := d
    obtain ⟨hk, hr⟩ := List.pairwise_cons.1 h
    simp only [Memory.write]
    split
    · rename_i hlt
      refine List.pairwise_cons.2 ⟨fun c hc => ?_, h⟩
      rcases List.mem_cons.1 hc with rfl | hc
      · exact hlt
      · exact hlt.trans (hk c hc)
    · split
      · rename_i heq
        subst heq
        exact List.pairwise_cons.2 ⟨hk, hr⟩
      · rename_i hle hne
        refine List.pairwise_cons.2 ⟨fun c hc => ?_, ih hr⟩
        rcases Memory.mem_write rest a b c hc with rfl | hc
        · simp only; omega
        · exact hk c hc

/-- Writing bytes at consecutive offsets keeps the canonical form. -/
theorem Memory.writeBytes_wf (bs : List Byte) (m : Memory) (a : Nat) (h : Memory.wf m) :
    Memory.wf (Memory.writeBytes m a bs) := by
  induction bs generalizing a with
  | nil => exact h
  | cons b bs ih => exact Memory.write_wf _ _ _ (ih (a + 1))

/-- Bytes written at consecutive offsets are read back there, and every other offset reads as before. -/
theorem Memory.read_writeBytes (bs : List Byte) (m : Memory) (a x : Nat) (h : Memory.wf m) :
    Memory.read (Memory.writeBytes m a bs) x =
      if a ≤ x ∧ x < a + bs.length then bs[x - a]? else Memory.read m x := by
  induction bs generalizing a with
  | nil => simp [Memory.writeBytes]
  | cons b bs ih =>
    simp only [Memory.writeBytes, Memory.read_write _ _ _ _ (Memory.writeBytes_wf bs m (a + 1) h), ih,
      List.length_cons]
    by_cases hx : x = a
    · subst hx; simp
    · by_cases hr : a + 1 ≤ x ∧ x < a + 1 + bs.length
      · have h1 : x - a = (x - (a + 1)) + 1 := by omega
        rw [if_neg hx, if_pos hr, if_pos (by omega), h1, List.getElem?_cons_succ]
      · rw [if_neg hx, if_neg hr, if_neg (by omega)]

/-- The stream of the reset state is in canonical form. -/
theorem reset_stream_wf : Memory.wf State.reset.source.stream := by decide

/-- Where the source holds the bytes `bs` from `a` on, a window of at least that length begins with them. -/
theorem sourceBytes_of_holds (bs : List Byte) (src : ByteSource) (a n : Nat) (hn : bs.length ≤ n)
    (h : ∀ k < bs.length, sourceByte src (a + k) = bs[k]?) : ∃ rest, sourceBytes src a n = bs ++ rest := by
  induction bs generalizing a n with
  | nil => exact ⟨_, rfl⟩
  | cons b bs ih =>
    cases n with
    | zero => simp at hn
    | succ n =>
      have h0 := h 0 (by simp)
      obtain ⟨rest, hr⟩ := ih (a + 1) n (by simpa using hn) fun k hk => by
        have := h (k + 1) (by simpa using hk)
        rwa [List.getElem?_cons_succ, ← Nat.add_assoc, Nat.add_right_comm] at this
      refine ⟨rest, ?_⟩
      simp only [Nat.add_zero, List.getElem?_cons_zero] at h0
      simp [sourceBytes, h0, hr]

/-- A byte of the store is a byte of the source. -/
theorem sourceByte_of_read {src : ByteSource} {a : Nat} {b : Byte} (h : Memory.read src.stream a = some b) :
    sourceByte src a = some b := by simp [sourceByte, h]

/-- An infinite stream has a byte at every offset. -/
theorem sourceByte_endless {src : ByteSource} {k : Nat} (h : src.tail = .endless k) (a : Nat) :
    ∃ b, sourceByte src a = some b := by
  unfold sourceByte
  split
  · exact ⟨_, rfl⟩
  · exact ⟨_, by rw [h]; rfl⟩

/-- So every window on it is full. -/
theorem sourceBytes_endless {src : ByteSource} {k : Nat} (h : src.tail = .endless k) (a n : Nat) :
    (sourceBytes src a n).length = n := by
  induction n generalizing a with
  | zero => rfl
  | succ n ih =>
    obtain ⟨b, hb⟩ := sourceByte_endless h a
    simp [sourceBytes, hb, ih]

end Sys2Proof.Machine
end

