-- ==== Sys2Proof/Laws/Outcomes.lean ====
section
/-!
SUPPORT. What an instruction, and a step inside a run, can lead to, said once: the run goes on, or it ends for one
of the reasons of 42_interpreter.md R143.
-/

namespace Sys2Proof.Machine

/-- Nothing but operand buffers may differ: what reading operands can do. -/
structure OperandsOnly (s r : State) : Prop where
  cfg : r.cfg = s.cfg
  source : r.source = s.source
  ctl : r.ctl = s.ctl
  pins : r.pins = s.pins
  ctx : r.ctx = { s.ctx with tdiBuf := r.ctx.tdiBuf, tdoExpected := r.ctx.tdoExpected, tdoMask := r.ctx.tdoMask }

/-- The instruction ran to its own effect: the run goes on, and each context register is as it was or written by its
writer. -/
structure Ran (i : Instr) (s t : State) : Prop where
  ctl : t.ctl = s.ctl
  sdr : t.ctx.sdrSize = s.ctx.sdrSize ∨ ∃ z, i = .xsdrsize z ∧ t.ctx.sdrSize = z ∧ z.toNat ≤ s.cfg.maxTdiBits
  eir : t.ctx.endIrState = s.ctx.endIrState ∨ (∃ z, i = .xendir z) ∧ (t.ctx.endIrState = .runTest ∨
      t.ctx.endIrState = .pauseIR)
  edr : t.ctx.endDrState = s.ctx.endDrState ∨ (∃ z, i = .xenddr z) ∧ (t.ctx.endDrState = .runTest ∨
      t.ctx.endDrState = .pauseDR)
  pend : t.ctx.pendingRuntest = s.ctx.pendingRuntest ∨ (∃ z, i = .xruntest z) ∨ (runsPostScan i = true ∧
      t.ctx.pendingRuntest = 0)
  mask : t.ctx.tdoMask = s.ctx.tdoMask ∨ ∃ z, i = .xtdomask z

/-- Every way an instruction that answers a next state can go. -/
inductive ExecCase (i : Instr) (s t : State) : Prop
  | exhausted (r) (h : OperandsOnly s r) (e : s.source.tail = .eos) (hs : OperandShort s.cfg s.ctx.sdrSize i)
      (m : r.ctx.tdoMask = s.ctx.tdoMask ∨ ∃ z, i = .xtdomask z) (ht : t = finish .exhausted r)
  | overflow (h : tooLong s.cfg i = true) (ht : t = finish .overflow s)
  | bad (h : badStateByte i = true) (ht : t = raiseFault .badStateId s)
  | quick (r) (h : OperandsOnly s r) (m : r.ctx.tdoMask = s.ctx.tdoMask) (hn : needsShiftDR i = true) (hs :
      s.pins.tapState ≠ .shiftDR) (ht : t = raiseFault .quickOutsideShift r)
  | success (hi : i = .xcomplete) (ht : t = finish .success s)
  | fail (q) (hc : compares i = true) (hq : Ran i s q) (hm : matched (scanBits q) q = false) (ht :
      t = finish .fail q)
  | ran (h : Ran i s t)

theorem Ran.of_eq {i : Instr} {s t : State} (h1 : t.ctl = s.ctl) (h2 : t.ctx.sdrSize = s.ctx.sdrSize) (h3 :
    t.ctx.endIrState = s.ctx.endIrState)
  (h4 : t.ctx.endDrState = s.ctx.endDrState) (h5 : t.ctx.pendingRuntest = s.ctx.pendingRuntest ∨
      (runsPostScan i = true ∧ t.ctx.pendingRuntest = 0))
  (h6 : t.ctx.tdoMask = s.ctx.tdoMask) : Ran i s t :=
  ⟨h1, .inl h2, .inl h3, .inl h4, h5.imp_right .inr, .inl h6⟩

theorem Ran.of_postScan {i : Instr} {s q : State} (e : TapState) (h : Ran i s q) (hp : runsPostScan i = true) :
    Ran i s (postScan e q) := by
  obtain ⟨m', hd', hp', ht', hc, h1, h2, h3⟩ := postScan_spec e q
  refine ⟨h3.trans h.ctl, ?_, ?_, ?_, .inr (.inr ⟨hp, by rw [hc]⟩), ?_⟩ <;> rw [hc]
  exacts [h.sdr, h.eir, h.edr, h.mask]

theorem Ran.of_shiftChecked {i : Instr} {s q : State} (n : Nat) (e : Bool) (h : Ran i s q) : Ran i s
    (shiftChecked n e q) := by
  obtain ⟨m', hd', hp', hs', hl', hc, h1, h2, h3⟩ := shiftChecked_spec n e q
  refine ⟨h3.trans h.ctl, ?_, ?_, ?_, ?_, ?_⟩ <;> rw [hc]
  exacts [h.sdr, h.eir, h.edr, h.pend, h.mask]

theorem Ran.of_navigate {i : Instr} {s q : State} (u : TapState) (h : Ran i s q) : Ran i s (navigate u q) :=
    ⟨h.1, h.2, h.3, h.4, h.5, h.6⟩
theorem Ran.of_shiftFast {i : Instr} {s q : State} (n : Nat) (u : Bool) (h : Ran i s q) : Ran i s
    (shiftFast n u q) := ⟨h.1, h.2, h.3, h.4, h.5, h.6⟩
theorem Ran.of_readTdi (i : Instr) (s : State) (n : Nat) (v : List Byte) : Ran i s (readTdi n v s) :=
    .of_eq rfl rfl rfl rfl (.inl rfl) rfl
theorem Ran.of_readBoth (i : Instr) (s : State) (n : Nat) (v e : List Byte) : Ran i s (readExpected n e
    (readTdi n v s)) := .of_eq rfl rfl rfl rfl (.inl rfl) rfl
theorem readTdi_operandsOnly (s : State) (n : Nat) (v : List Byte) : OperandsOnly s (readTdi n v s) := ⟨rfl, rfl,
    rfl, rfl, rfl⟩
theorem readBoth_operandsOnly (s : State) (n : Nat) (v e : List Byte) : OperandsOnly s (readExpected n e
    (readTdi n v s)) := ⟨rfl, rfl, rfl, rfl, rfl⟩
theorem readMask_operandsOnly (s : State) (n : Nat) (v : List Byte) : OperandsOnly s (readMask n v s) := ⟨rfl,
    rfl, rfl, rfl, rfl⟩

theorem withTdi_cases {i : Instr} {n : Nat} {v : List Byte} {act : State → StepResult} {s t : State} (h :
    withTdi n v act s = .next t)
    (hs : v.length < ceil8 n → OperandShort s.cfg s.ctx.sdrSize i) (ha : act
        (readTdi n v s) = .next t → ExecCase i s t) : ExecCase i s t := by
  rcases whenWhole_next h with ⟨-, h⟩ | ⟨h1, h2, h3⟩
  · exact ha h
  · exact .exhausted _ (readTdi_operandsOnly _ _ _) h2 (hs h1) (.inl rfl) h3

theorem withTdiAndExpected_cases {i : Instr} {v e : List Byte} {act : State → StepResult} {s t : State} (h :
    withTdiAndExpected v e act s = .next t)
    (hs : v.length < ceil8 s.ctx.sdrSize.toNat ∨
        e.length < ceil8 s.ctx.sdrSize.toNat → OperandShort s.cfg s.ctx.sdrSize i)
    (ha : act (readExpected (scanBits s) e (readTdi (scanBits s) v s)) = .next t → ExecCase i s t) :
        ExecCase i s t := by
  refine withTdi_cases h (fun h => hs (.inl h)) fun h => ?_
  rcases whenWhole_next h with ⟨-, h⟩ | ⟨h1, h2, h3⟩
  · exact ha h
  · exact .exhausted _ (readBoth_operandsOnly _ _ _ _) h2 (hs (.inr h1)) (.inl rfl) h3

theorem afterCompare_cases {i : Instr} {s q : State} {n : Nat} {f : State → State} (hc : compares i = true) (hq :
    Ran i s q) (hn : n = scanBits q) (hf : Ran i s q → Ran i s (f q)) :
    ExecCase i s (afterCompare n f q) := by
  unfold afterCompare; split
  · exact .ran (hf hq)
  · rename_i hm; subst hn; exact .fail q hc hq (by simpa using hm) rfl

theorem inShiftDR_cases {i : Instr} {s r : State} {f : State → State} (h : OperandsOnly s r) (m :
    r.ctx.tdoMask = s.ctx.tdoMask) (hn : needsShiftDR i = true) 
   (hf : ExecCase i s (f r)) : ExecCase i s (inShiftDR f r) := by
  unfold inShiftDR; split
  · exact hf
  · rename_i hs; rw [h.pins] at hs; exact .quick r h m hn hs rfl

theorem scanBits_shiftChecked (q : State) (n : Nat) (e : Bool) : scanBits (shiftChecked n e q) = scanBits q := by
  obtain ⟨m', hd', hp', hs', hl', hc, -⟩ := shiftChecked_spec n e q
  unfold scanBits; rw [hc]

/-- Every instruction goes one of these ways. -/
theorem exec_cases {i : Instr} {s t : State} (h : exec i s = .next t) : ExecCase i s t := by
  cases i <;> simp only [exec] at h
  case xcomplete => cases h; exact .success rfl rfl
  case xtdomask mask =>
    rcases whenWhole_next h with ⟨-, h⟩ | ⟨h1, h2, h3⟩
    · cases h; exact .ran ⟨rfl, .inl rfl, .inl rfl, .inl rfl, .inl rfl, .inr ⟨_, rfl⟩⟩
    · exact .exhausted _ (readMask_operandsOnly _ _ _) h2 h1 (.inr ⟨_, rfl⟩) h3
  case xsir len tdi =>
    unfold execXsir irScan at h; split at h
    · rename_i hl; cases h; exact .overflow (by simpa [tooLong] using hl) rfl
    · rename_i hl
      refine withTdi_cases h (fun h => ⟨hl, h⟩) fun h => ?_
      cases h
      exact .ran (Ran.of_postScan _ (Ran.of_shiftChecked _ _ (Ran.of_navigate _ (Ran.of_readTdi ..))) rfl)
  case xsir2 len tdi =>
    unfold execXsir2 irScan at h; split at h
    · rename_i hl; cases h; exact .overflow (by simpa [tooLong] using hl) rfl
    · rename_i hl
      refine withTdi_cases h (fun h => ⟨hl, h⟩) fun h => ?_
      cases h
      exact .ran (Ran.of_postScan _ (Ran.of_shiftChecked _ _ (Ran.of_navigate _ (Ran.of_readTdi ..))) rfl)
  case xsdr tdi =>
    refine withTdi_cases h id fun h => ?_
    cases h
    exact .ran (Ran.of_postScan _ (Ran.of_shiftChecked _ _ (Ran.of_navigate _ (Ran.of_readTdi ..))) rfl)
  case xruntest count => cases h; exact .ran ⟨rfl, .inl rfl, .inl rfl, .inl rfl, .inr (.inl ⟨_, rfl⟩), .inl rfl⟩
  case xrepeat count => cases h; exact .ran ⟨rfl, .inl rfl, .inl rfl, .inl rfl, .inl rfl, .inl rfl⟩
  case xsdrsize size =>
    unfold execXsdrsize at h; split at h <;> cases h <;> rename_i hl
    · exact .overflow (by simpa [tooLong] using hl) rfl
    · exact .ran ⟨rfl, .inr ⟨_, rfl, rfl, Nat.not_lt.1 hl⟩, .inl rfl, .inl rfl, .inl rfl, .inl rfl⟩
  case xsdrtdo tdi tdo =>
    refine withTdiAndExpected_cases h id fun h => ?_
    cases h
    exact afterCompare_cases rfl (Ran.of_shiftChecked _ _ (Ran.of_navigate _ (Ran.of_readBoth ..)))
        (by rw [scanBits_shiftChecked]; rfl) fun h => Ran.of_postScan _ h rfl
  case xsdrb tdi =>
    refine withTdi_cases h id fun h => ?_
    cases h
    exact .ran (Ran.of_shiftFast _ _ (Ran.of_navigate _ (Ran.of_readTdi ..)))
  case xsdrc tdi =>
    refine withTdi_cases h id fun h => ?_
    cases h
    exact inShiftDR_cases (readTdi_operandsOnly ..) rfl rfl (.ran (Ran.of_shiftFast _ _ (Ran.of_readTdi ..)))
  case xsdre tdi =>
    refine withTdi_cases h id fun h => ?_
    cases h
    exact inShiftDR_cases (readTdi_operandsOnly ..) rfl rfl (.ran (Ran.of_navigate _ (Ran.of_shiftFast _ _
        (Ran.of_readTdi ..))))
  case xsdrtdob tdi tdo =>
    refine withTdiAndExpected_cases h id fun h => ?_
    cases h
    exact afterCompare_cases rfl (Ran.of_shiftChecked _ _ (Ran.of_navigate _ (Ran.of_readBoth ..)))
        (by rw [scanBits_shiftChecked]; rfl) id
  case xsdrtdoc tdi tdo =>
    refine withTdiAndExpected_cases h id fun h => ?_
    cases h
    exact inShiftDR_cases (readBoth_operandsOnly ..) rfl rfl (afterCompare_cases rfl (Ran.of_shiftChecked _ _
        (Ran.of_readBoth ..)) (by rw [scanBits_shiftChecked]; rfl) id)
  case xsdrtdoe tdi tdo =>
    refine withTdiAndExpected_cases h id fun h => ?_
    cases h
    exact inShiftDR_cases (readBoth_operandsOnly ..) rfl rfl (afterCompare_cases rfl (Ran.of_shiftChecked _ _
        (Ran.of_readBoth ..)) (by rw [scanBits_shiftChecked]; rfl) (Ran.of_navigate _))
  case xstate b =>
    unfold execXstate at h; split at h <;> cases h
    · exact .ran (Ran.of_navigate _ ⟨rfl, .inl rfl, .inl rfl, .inl rfl, .inl rfl, .inl rfl⟩)
    · rename_i hb
      refine .bad ?_ rfl
      have := List.getElem?_eq_none_iff.1 hb
      have h16 : TapState.all.length = 16 := rfl
      simp only [badStateByte, decide_eq_true_eq]; omega
  case xendir flag =>
    cases h
    refine .ran ⟨rfl, .inl rfl, .inr ⟨⟨_, rfl⟩, ?_⟩, .inl rfl, .inl rfl, .inl rfl⟩
    simp only
    split <;> simp
  case xenddr flag =>
    cases h
    refine .ran ⟨rfl, .inl rfl, .inl rfl, .inr ⟨⟨_, rfl⟩, ?_⟩, .inl rfl, .inl rfl⟩
    simp only
    split <;> simp

/-- An instruction short of operand bytes writes the bytes there are and meets the end of the source (R247,
    R249). -/
theorem exec_of_short {i : Instr} {s : State} (h : OperandShort s.cfg s.ctx.sdrSize i) : ∃ r, OperandsOnly s r ∧
    exec i s = sourceEnd r := by
  have td : ∀ (n : Nat) (v : List Byte) (act : State → StepResult), v.length < ceil8 n → ∃ r, OperandsOnly s r ∧
      withTdi n v act s = sourceEnd r := by
    intro n v act h; exact ⟨_, readTdi_operandsOnly s n v, by unfold withTdi whenWhole; rw [if_neg (by omega)]⟩
  have dd : ∀ (v e : List Byte) (act : State → StepResult), (v.length < ceil8 s.ctx.sdrSize.toNat ∨
      e.length < ceil8 s.ctx.sdrSize.toNat) → ∃ r, OperandsOnly s r ∧
      withTdiAndExpected v e act s = sourceEnd r := by
    intro v e act h
    by_cases h1 : v.length < ceil8 s.ctx.sdrSize.toNat
    · exact td _ _ _ h1
    · have h2 := h.resolve_left h1
      refine ⟨_, readBoth_operandsOnly s s.ctx.sdrSize.toNat v e, ?_⟩
      unfold withTdiAndExpected withTdi whenWhole; rw [if_pos (by omega)]; simp only; rw [if_neg (by omega)]
  cases i <;> simp only [OperandShort] at h <;> simp only [exec]
  case xtdomask m => exact ⟨_, readMask_operandsOnly s _ m, by unfold execXtdomask whenWhole; rw [if_neg
      (by omega)]⟩
  case xsir => unfold execXsir irScan; rw [if_neg h.1]; exact td _ _ _ h.2
  case xsir2 => unfold execXsir2 irScan; rw [if_neg h.1]; exact td _ _ _ h.2
  all_goals first
    | exact td _ _ _ h
    | exact dd _ _ _ h

theorem withTdi_whole {n : Nat} {v : List Byte} {act : State → StepResult} {s : State} (h : ¬ v.length < ceil8 n) :
    withTdi n v act s = act (readTdi n v s) := if_pos (Nat.not_lt.1 h)

theorem withTdiAndExpected_whole {v e : List Byte} {act : State → StepResult} {s : State}
    (h : ¬ (v.length < ceil8 s.ctx.sdrSize.toNat ∨ e.length < ceil8 s.ctx.sdrSize.toNat)) :
    withTdiAndExpected v e act s =
      act (readExpected s.ctx.sdrSize.toNat e (readTdi s.ctx.sdrSize.toNat v s)) := by
  rw [withTdiAndExpected, withTdi_whole fun hv => h (.inl hv)]
  exact if_pos (Nat.not_lt.1 fun he => h (.inr he))

/-- An instruction that has its operand bytes always answers a next state. -/
theorem exec_of_whole {i : Instr} {s : State} (h : ¬ OperandShort s.cfg s.ctx.sdrSize i) :
    ∃ t, exec i s = .next t := by
  cases i <;> simp only [OperandShort] at h <;> simp only [exec]
  case xtdomask => exact ⟨_, if_pos (Nat.not_lt.1 h)⟩
  case xsir =>
    unfold execXsir irScan; split
    · exact ⟨_, rfl⟩
    · rename_i hl; exact ⟨_, withTdi_whole fun hv => h ⟨hl, hv⟩⟩
  case xsir2 =>
    unfold execXsir2 irScan; split
    · exact ⟨_, rfl⟩
    · rename_i hl; exact ⟨_, withTdi_whole fun hv => h ⟨hl, hv⟩⟩
  case xsdrsize => unfold execXsdrsize; split <;> exact ⟨_, rfl⟩
  case xstate => unfold execXstate; split <;> exact ⟨_, rfl⟩
  all_goals first
    | exact ⟨_, rfl⟩
    | exact ⟨_, withTdi_whole h⟩
    | exact ⟨_, withTdiAndExpected_whole h⟩

/-- Every way a step inside a run that answers a next state can go. -/
theorem step_cases {s t : State} (hr : inRun s = true) (h : step s = .next t) :
    (∃ i n, (decode s.cfg s.ctx.sdrSize (fetchWindow s) = .instr i n ∨ decode s.cfg s.ctx.sdrSize
        (fetchWindow s) = .cutShort i n) ∧ exec i (advance n s) = .next t) ∨
    (∃ n, decode s.cfg s.ctx.sdrSize (fetchWindow s) = .exhausted n ∧ s.source.tail = .eos ∧
        t = finish .exhausted (advance n s)) ∨
    (∃ b, decode s.cfg s.ctx.sdrSize (fetchWindow s) = .unsupported b ∧ t = finish .fail (advance 1 s)) := by
  unfold step stepWith at h
  rw [if_pos hr] at h
  split at h
  · rename_i hd; exact .inl ⟨_, _, .inl hd, h⟩
  · rename_i hd; exact .inl ⟨_, _, .inr hd, h⟩
  · rename_i hd; obtain ⟨h1, h2⟩ := sourceEnd_next h; exact .inr (.inl ⟨_, hd, h1, h2⟩)
  · rename_i b hd; cases h; exact .inr (.inr ⟨b, hd, rfl⟩)

/-- What every step inside a run does alike, past the bytes it takes. -/
theorem step_quiet {s t : State} (hr : inRun s = true) (h : step s = .next t) : ∃ n, Quiet (advance n s) t := by
  rcases step_cases hr h with ⟨i, n, -, h⟩ | ⟨n, -, -, rfl⟩ | ⟨b, -, rfl⟩
  · exact ⟨n, exec_quiet h⟩
  · exact ⟨n, finish_quiet _ _⟩
  · exact ⟨1, finish_quiet _ _⟩

/-- On an infinite stream the decoder never misses a byte: every instruction is whole, or its opcode is none of the
eighteen (R256). -/
theorem decode_endless {s : State} {k : Nat} (h : s.source.tail = .endless k) :
    (∃ i n, decode s.cfg s.ctx.sdrSize (fetchWindow s) = .instr i n) ∨
      ∃ b, decode s.cfg s.ctx.sdrSize (fetchWindow s) = .unsupported b := by
  have hl : (fetchWindow s).length = longestInstr s.cfg s.ctx.sdrSize := sourceBytes_endless h _ _
  cases hd : decode s.cfg s.ctx.sdrSize (fetchWindow s) with
  | instr i n => exact .inl ⟨i, n, rfl⟩
  | unsupported b => exact .inr ⟨b, rfl⟩
  | exhausted n => exact absurd (decode_missing (.inl hd)) (by omega)
  | cutShort i n => exact absurd (decode_missing (.inr ⟨i, hd⟩)) (by omega)

end Sys2Proof.Machine
end

