-- ==== Sys2Proof/Laws/PerInstr.lean ====
section
/-!
SUPPORT. What holds of every instruction as a term, one lemma per constructor: the shape of its encoding (30_encoding.md
R70 to R73). The lengths are written out here from the table of R72, not through `instrLength`.
-/

namespace Sys2Proof.Laws.EncodeShape

open Sys2Proof

/-- The length in bytes the table of R72 gives an opcode, at a scan width and, for XSIR and XSIR2, an instruction
length that fits. -/
def tableLength (sdrBits irBits : Nat) : Opcode → Nat
  | .xcomplete => 1
  | .xrepeat | .xstate | .xendir | .xenddr => 2
  | .xruntest | .xsdrsize => 5
  | .xsir => 2 + ceil8 irBits
  | .xsir2 => 3 + ceil8 irBits
  | .xtdomask | .xsdr | .xsdrb | .xsdrc | .xsdre => 1 + ceil8 sdrBits
  | .xsdrtdo | .xsdrtdob | .xsdrtdoc | .xsdrtdoe => 1 + 2 * ceil8 sdrBits

/-- The instruction length operand, for the two instructions that have one. -/
def irBits : Instr → Nat
  | .xsir len _ => len.toNat
  | .xsir2 len _ => len.toNat
  | .xcomplete | .xtdomask _ | .xsdr _ | .xruntest _ | .xrepeat _ | .xsdrsize _ | .xsdrtdo _ _ | .xsdrb _ | .xsdrc _
  | .xsdre _ | .xsdrtdob _ _ | .xsdrtdoc _ _ | .xsdrtdoe _ _ | .xstate _ | .xendir _ | .xenddr _ => 0

/-- A well-formed instruction whose length operand fits the maximum is encoded by its opcode byte and as many bytes as
R72 says, and the fetch window holds it. -/
def Statement (i : Instr) : Prop :=
  ∀ (p : Params) (sdrSize : Word32), i.wellFormed p sdrSize = true → irBits i ≤ p.maxTdiBits →
    (encode p i).head? = some (p.opcodes.byteOf i.opcode) ∧
    (encode p i).length = tableLength sdrSize.toNat (irBits i) i.opcode ∧
    (encode p i).length ≤ longestInstr p sdrSize

/-- The shape follows from the length the model gives the instruction. -/
theorem of_length (i : Instr)
    (h : ∀ (p : Params) (z : Word32), irBits i ≤ p.maxTdiBits →
      instrLength p z i = tableLength z.toNat (irBits i) i.opcode) : Statement i := by
  intro p z hw hf
  refine ⟨rfl, (encode_length p z i hw).trans (h p z hf), ?_⟩
  rw [encode_length p z i hw]
  exact instrLength_le p z i

/-- A length that fits has its data bytes. -/
theorem irDataBytes_fits {p : Params} {n : Nat} (h : n ≤ p.maxTdiBits) : irDataBytes p n = ceil8 n :=
  if_neg (Nat.not_lt.2 h)

theorem xcomplete : Statement .xcomplete := of_length _ fun _ _ _ => rfl

theorem xtdomask (mask : List Byte) : Statement (.xtdomask mask) := of_length _ fun _ _ _ => rfl

theorem xsir (len : Byte) (tdi : List Byte) : Statement (.xsir len tdi) :=
  of_length _ fun _ _ h => congrArg (2 + ·) (irDataBytes_fits h)

theorem xsdr (tdi : List Byte) : Statement (.xsdr tdi) := of_length _ fun _ _ _ => rfl

theorem xruntest (count : Word32) : Statement (.xruntest count) := of_length _ fun _ _ _ => rfl

theorem xrepeat (count : Byte) : Statement (.xrepeat count) := of_length _ fun _ _ _ => rfl

theorem xsdrsize (size : Word32) : Statement (.xsdrsize size) := of_length _ fun _ _ _ => rfl

theorem xsdrtdo (tdi tdo : List Byte) : Statement (.xsdrtdo tdi tdo) := of_length _ fun _ _ _ => rfl

theorem xsdrb (tdi : List Byte) : Statement (.xsdrb tdi) := of_length _ fun _ _ _ => rfl

theorem xsdrc (tdi : List Byte) : Statement (.xsdrc tdi) := of_length _ fun _ _ _ => rfl

theorem xsdre (tdi : List Byte) : Statement (.xsdre tdi) := of_length _ fun _ _ _ => rfl

theorem xsdrtdob (tdi tdo : List Byte) : Statement (.xsdrtdob tdi tdo) := of_length _ fun _ _ _ => rfl

theorem xsdrtdoc (tdi tdo : List Byte) : Statement (.xsdrtdoc tdi tdo) := of_length _ fun _ _ _ => rfl

theorem xsdrtdoe (tdi tdo : List Byte) : Statement (.xsdrtdoe tdi tdo) := of_length _ fun _ _ _ => rfl

theorem xstate (s : Byte) : Statement (.xstate s) := of_length _ fun _ _ _ => rfl

theorem xendir (flag : Byte) : Statement (.xendir flag) := of_length _ fun _ _ _ => rfl

theorem xenddr (flag : Byte) : Statement (.xenddr flag) := of_length _ fun _ _ _ => rfl

theorem xsir2 (len : BitVec 16) (tdi : List Byte) : Statement (.xsir2 len tdi) :=
  of_length _ fun _ _ h => congrArg (3 + ·) (irDataBytes_fits h)

end Sys2Proof.Laws.EncodeShape
end

