-- ==== Sys2Proof/Laws/Reset.lean ====
section
/-!
SUPPORT. The reset state is the one `Run()` starts from, and
placing an instruction keeps the stream in canonical form.
-/

namespace Sys2Proof.Machine

/-- Reset pulses on a target for which no answer is listed: each takes the next free value. -/
theorem driveReset_free (n : Nat) (tap : TapState) (hold : Bool) (tr : List PinEvent) (k : Nat) :
    driveReset (n + 1) ⟨tap, hold, tr, [], k⟩ =
      ⟨tap, true, tr ++ (List.range (n + 1)).map fun j => .full false true (Config.freeTdo (k + j)), [], k +
          (n + 1)⟩ := by
  induction n generalizing hold tr k with
  | zero => rfl
  | succ n ih =>
    have h : drivePulse false true ⟨tap, hold, tr, [], k⟩ =
        ⟨tap, true, tr ++ [.full false true (Config.freeTdo k)], [], k + 1⟩ := rfl
    rw [driveReset, h, ih, List.range_succ_eq_map (n := n + 1)]
    simp [Function.comp_def, Nat.add_assoc, Nat.add_comm 1]

/-- From ANY power-up state with the default configuration and no free value taken yet the
prologue of `Run()` on an
empty stream gives `State.reset`: what stood in the machine before does not matter (R41, R270). -/
theorem startRun_blank (s : State) (hc : s.cfg = defaultParams) (hf : s.pins.freeDraws = 0) (hk :
    s.ctl.calls = []) :
    startRun ⟨[], .eos, []⟩ s = State.reset := by
  unfold startRun tapReset State.reset Pins.reset resetPulses
  rw [driveReset_free 31, hc, hf, hk]
  simp only [Nat.zero_add, List.nil_append]

/-- A run begins alike from a machine at power-up and from any other state the unspecified items may have come from. -/
theorem startRun_powerUp (c : RunCall) (s : State) : startRun c (powerUp s) = startRun c s := rfl

/-- Placing an instruction keeps the canonical form of the stream. -/
theorem placeInstr_wf (s : State) (nbits w : Nat) (h : Memory.wf s.source.stream) :
    Memory.wf (placeInstr s nbits w).source.stream := Memory.writeBytes_wf _ _ _ h

end Sys2Proof.Machine
end

