-- ==== Sys2Proof/Tests/Slice0.lean ====
section
/-!
SUPPORT. The model's own tests: well-formedness, decoding of words written out from spec/30_encoding.md, one step
per instruction with the results of the spec's examples, and a witness for the hypotheses of every obligation.
-/

namespace Sys2Proof.Tests

open Sys2Proof Sys2Proof.Machine

/-! ## Small machines -/

/-- A 64-bit core whose compare buffers hold 64 bits (the bound vectors of 95_test_vectors.md). -/
def wide : Params := ⟨64, 64, 0xFF, defaultOpcodes, 0⟩

/-- A 64-bit core whose compare buffers hold 8 bits (the compare bound, R129). -/
def narrow : Params := ⟨64, 8, 0xFF, defaultOpcodes, 0⟩

/-- Bytes at consecutive offsets from `a` on. -/
def bytesAt (a : Nat) (bs : List Byte) : Memory := bs.mapIdx fun k b => (a + k, b)

/-- A machine inside a run: where its TAP is, the TMS held, the scan width, the stream, the answers to come. -/
def machine (p : Params) (tap : TapState) (hold : Bool) (sdr : Word32) (bs : List Byte) (tdo : List Bool) :
    State where
  cfg := p
  pins := ⟨tap, hold, [], tdo, 0⟩
  ctx := { Context.reset p with sdrSize := sdr }
  source := ⟨bytesAt 0 bs, .eos, 0⟩
  ctl := ⟨none, none, [], true⟩

/-- A target that answers 0, or 1, for longer than any test shifts. -/
def zeros : List Bool := List.replicate 40 false
def ones : List Bool := List.replicate 40 true

/-- A machine in ShiftDR, the middle of a quick sequence, with 8-bit scans. -/
def inShift (bs : List Byte) (tdo : List Bool) : State := machine wide .shiftDR false 8 bs tdo

/-- A machine in RunTest with 8-bit scans. -/
def idle (bs : List Byte) (tdo : List Bool) : State := machine wide .runTest false 8 bs tdo

/-- A machine in RunTest whose 8-bit compare buffers are smaller than its 16-bit scans. -/
def bounded (bs : List Byte) (tdo : List Bool) : State := machine narrow .runTest false 16 bs tdo

/-- A machine in TestLogicReset with its TMS at 1, as after the reset pulses. -/
def fresh (bs : List Byte) (tdo : List Bool) : State := machine wide .testLogicReset true 32 bs tdo

/-- The state a step answers, where it answers one. -/
def after : StepResult → Option State
  | .next t => some t
  | .fault _ => none
  | .refused _ => none

/-- The TMS values of the pulses driven. -/
def tmsOf (t : State) : List Bool := (drivenPins t.pins.trace).map Prod.snd

/-- TMS or TDI values written as digits. -/
def bits (l : List Nat) : List Bool := l.map (· == 1)

/-- The outcome and the model fault after a step. -/
def endOf (s : State) : Option (Option RunOutcome × Option ModelFault) :=
  (after (step s)).map fun t => (t.ctl.outcome, t.ctl.faulted)

/-! ## Well-formedness: one ill-formed term for each check, refused, beside a well-formed one -/

theorem test_wf_xtdomask : (Instr.xtdomask [0, 0]).wellFormed wide 9 = true ∧
    (Instr.xtdomask [0]).wellFormed wide 9 = false := by decide
theorem test_wf_xsir : (Instr.xsir 9 [0, 0]).wellFormed wide 32 = true ∧
    (Instr.xsir 9 [0]).wellFormed wide 32 = false ∧ (Instr.xsir 65 [0]).wellFormed wide 32 = false := by decide
theorem test_wf_xsir2 : (Instr.xsir2 8 [0]).wellFormed wide 32 = true ∧
    (Instr.xsir2 8 []).wellFormed wide 32 = false ∧ (Instr.xsir2 65535 [0]).wellFormed wide 32 = false := by decide
theorem test_wf_xsdr : (Instr.xsdr []).wellFormed wide 0 = true ∧ (Instr.xsdr []).wellFormed wide 1 = false := by
  decide
theorem test_wf_xsdrb : (Instr.xsdrb [0]).wellFormed wide 8 = true ∧
    (Instr.xsdrb [0]).wellFormed wide 9 = false := by decide
theorem test_wf_xsdrc : (Instr.xsdrc [0]).wellFormed wide 8 = true ∧
    (Instr.xsdrc [0, 0]).wellFormed wide 8 = false := by decide
theorem test_wf_xsdre : (Instr.xsdre [0]).wellFormed wide 8 = true ∧
    (Instr.xsdre []).wellFormed wide 8 = false := by decide
theorem test_wf_xsdrtdo : (Instr.xsdrtdo [0] [0]).wellFormed wide 8 = true ∧
    (Instr.xsdrtdo [] [0]).wellFormed wide 8 = false ∧ (Instr.xsdrtdo [0] []).wellFormed wide 8 = false := by decide
theorem test_wf_xsdrtdob : (Instr.xsdrtdob [0] [0]).wellFormed wide 8 = true ∧
    (Instr.xsdrtdob [] [0]).wellFormed wide 8 = false ∧ (Instr.xsdrtdob [0] []).wellFormed wide 8 = false := by
  decide
theorem test_wf_xsdrtdoc : (Instr.xsdrtdoc [0] [0]).wellFormed wide 8 = true ∧
    (Instr.xsdrtdoc [] [0]).wellFormed wide 8 = false ∧ (Instr.xsdrtdoc [0] []).wellFormed wide 8 = false := by
  decide
theorem test_wf_xsdrtdoe : (Instr.xsdrtdoe [0] [0]).wellFormed wide 8 = true ∧
    (Instr.xsdrtdoe [] [0]).wellFormed wide 8 = false ∧ (Instr.xsdrtdoe [0] []).wellFormed wide 8 = false := by
  decide
/-- The constraints on the parameters (D2, D23), each with a configuration that breaks it alone. -/
theorem test_params_ok : wide.ok ∧ narrow.ok ∧ defaultParams.ok ∧
    ¬ { wide with maxTdiBits := 24, maxCompareBits := 24 }.ok ∧ ¬ { wide with maxTdiBits := 68 }.ok ∧
    ¬ { wide with maxCompareBits := 0 }.ok ∧ ¬ { wide with maxCompareBits := 12 }.ok ∧
    ¬ { wide with maxCompareBits := 72 }.ok ∧
    ¬ { wide with opcodes := { defaultOpcodes with xsdr := 0x02 } }.ok := by decide

/-! ## Decoding: the bytes of R73 and the layouts of R71, at `sdr_size` = 16 -/

theorem test_decode_xcomplete : decode wide 16 [0x00] = .instr .xcomplete 1 := by decide
theorem test_decode_xtdomask : decode wide 16 [0x01, 0x0F, 0xF0] = .instr (.xtdomask [0x0F, 0xF0]) 3 := by decide
theorem test_decode_xsir : decode wide 16 [0x02, 0x08, 0xA5] = .instr (.xsir 8 [0xA5]) 3 := by decide
theorem test_decode_xsdr : decode wide 16 [0x03, 0x12, 0x34] = .instr (.xsdr [0x12, 0x34]) 3 := by decide
theorem test_decode_xruntest : decode wide 16 [0x04, 0x01, 0x02, 0x03, 0x04] = .instr (.xruntest 0x01020304) 5 := by
  decide
theorem test_decode_xrepeat : decode wide 16 [0x07, 0x20] = .instr (.xrepeat 0x20) 2 := by decide
theorem test_decode_xsdrsize : decode wide 16 [0x08, 0x80, 0x00, 0x04, 0x01] = .instr (.xsdrsize 0x80000401) 5 := by
  decide
theorem test_decode_xsdrtdo : decode wide 16 [0x09, 0x12, 0x34, 0x56, 0x78] =
    .instr (.xsdrtdo [0x12, 0x34] [0x56, 0x78]) 5 := by decide
theorem test_decode_xsdrb : decode wide 16 [0x0C, 0x12, 0x34] = .instr (.xsdrb [0x12, 0x34]) 3 := by decide
theorem test_decode_xsdrc : decode wide 16 [0x0D, 0x12, 0x34] = .instr (.xsdrc [0x12, 0x34]) 3 := by decide
theorem test_decode_xsdre : decode wide 16 [0x0E, 0x12, 0x34] = .instr (.xsdre [0x12, 0x34]) 3 := by decide
theorem test_decode_xsdrtdob : decode wide 16 [0x0F, 0x12, 0x34, 0x56, 0x78] =
    .instr (.xsdrtdob [0x12, 0x34] [0x56, 0x78]) 5 := by decide
theorem test_decode_xsdrtdoc : decode wide 16 [0x10, 0x12, 0x34, 0x56, 0x78] =
    .instr (.xsdrtdoc [0x12, 0x34] [0x56, 0x78]) 5 := by decide
theorem test_decode_xsdrtdoe : decode wide 16 [0x11, 0x12, 0x34, 0x56, 0x78] =
    .instr (.xsdrtdoe [0x12, 0x34] [0x56, 0x78]) 5 := by decide
theorem test_decode_xstate : decode wide 16 [0x12, 0x06] = .instr (.xstate 6) 2 := by decide
theorem test_decode_xendir : decode wide 16 [0x13, 0x01] = .instr (.xendir 1) 2 := by decide
theorem test_decode_xenddr : decode wide 16 [0x14, 0xFF] = .instr (.xenddr 0xFF) 2 := by decide
theorem test_decode_xsir2 : decode wide 16 [0x15, 0x00, 0x08, 0xA5] = .instr (.xsir2 8 [0xA5]) 4 := by decide
/-- A length above the maximum takes no data byte (R181); the table's high length byte comes first (R182). -/
theorem test_decode_too_long : decode wide 16 [0x15, 0x01, 0x00, 0xA5] = .instr (.xsir2 256 []) 3 := by decide
/-- Unsupported bytes (R75), the end of the source at the opcode and inside a vector (R51). -/
theorem test_decode_refused : decode wide 16 [0x05] = .unsupported 0x05 ∧
    decode wide 16 [0x17] = .unsupported 0x17 ∧
    decode wide 16 [] = .exhausted 0 ∧ decode wide 16 [0x03, 0x12] = .cutShort (.xsdr [0x12]) 2 := by decide
/-- The host's numbering: the first byte is the low byte of the word. -/
theorem test_table_word : decodeTableWord 8 0x07 = some (.xrepeat 0) ∧
    decodeTableWord 16 0x2007 = some (.xrepeat 0x20) ∧ decodeTableWord 8 0x16 = none := by decide

/-! ## One step of each instruction -/

/-- R224: `00` ends the run with SUCCESS, no pin moved. -/
theorem test_xcomplete : endOf (idle [0x00, 0x16] zeros) = some (some .success, none) ∧
    (after (step (idle [0x00, 0x16] zeros))).map (fun t => (t.pins.trace, t.source.cursor)) = some ([], 1) := by
  decide

/-- R160: at 16 bits `01 0F F0` sets mask byte 1 to 0F and byte 0 to F0. -/
theorem test_xtdomask : (after (step (machine wide .runTest false 16 [0x01, 0x0F, 0xF0] []))).map
    (fun t => t.ctx.tdoMask.take 3) = some [0xF0, 0x0F, 0xFF] := by decide
/-- R160, R55: with 8-bit compare buffers the first, most significant mask byte is dropped. -/
theorem test_xtdomask_dropped : (after (step (bounded [0x01, 0x0F, 0xF0] []))).map
    (fun t => t.ctx.tdoMask) = some [0xF0] := by decide

/-- R180: `02 08 A5` from TestLogicReset drives TMS 01100, then A5 least significant bit first with the exit on the
last bit, then TMS 10, and ends in RunTest (V-SRC-1). -/
theorem test_xsir : (after (step (fresh [0x02, 0x08, 0xA5] zeros))).map
    (fun t => (tmsOf t, (drivenPins t.pins.trace).map Prod.fst, t.pins.tapState)) =
    some (bits [0, 1, 1, 0, 0, 0, 0, 0, 0, 0, 0, 0, 1, 1, 0],
      bits [0, 0, 0, 0, 0, 1, 0, 1, 0, 0, 1, 0, 1, 0, 0], .runTest) := by decide
/-- R128: an instruction scan of no bits leaves from ShiftIR; TMS 1100 then 110. -/
theorem test_xsir_zero : (after (step (idle [0x02, 0x00] zeros))).map (fun t => (tmsOf t, t.pins.tapState)) =
    some (bits [1, 1, 0, 0, 1, 1, 0], .runTest) := by decide

/-- R184: at 8 bits `03 81` from RunTest drives TMS 100, then 81, then TMS 10. -/
theorem test_xsdr : (after (step (idle [0x03, 0x81] ones))).map
    (fun t => (tmsOf t, (drivenPins t.pins.trace).map Prod.fst, t.pins.tapState)) =
    some (bits [1, 0, 0, 0, 0, 0, 0, 0, 0, 0, 1, 1, 0], bits [0, 0, 0, 1, 0, 0, 0, 0, 0, 0, 1, 0, 0],
        .runTest) := by
  decide
/-- R146: with 3 cycles pending, TMS 10, then three pulses each followed by a settling delay; the count is used up. -/
theorem test_postscan :
    let t := postScan .pauseDR { machine wide .exit1DR true 8 [] zeros with
      ctx := { Context.reset wide with pendingRuntest := 3 } }
    (t.pins.trace, t.ctx.pendingRuntest, t.pins.tapState) =
    ([.full false true false, .full false false false, .full false false false, .settle,
      .full false false false, .settle, .full false false false, .settle], 0, .runTest) := by decide

/-- R163: `04 00 00 01 00` sets the pending count to 256. -/
theorem test_xruntest : (after (step (idle [0x04, 0x00, 0x00, 0x01, 0x00] []))).map
    (fun t => (t.ctx.pendingRuntest, t.pins.trace, t.source.cursor)) = some (256, [], 5) := by decide

/-- R162: `07 20` consumes two bytes and changes nothing. -/
theorem test_xrepeat : after (step (idle [0x07, 0x20] zeros)) =
    some { idle [0x07, 0x20] zeros with source := ⟨bytesAt 0 [0x07, 0x20], .eos, 2⟩ } := by decide

/-- R166 at the boundary, with a maximum of 64: `08 00 00 00 40` sets 64, `08 00 00 00 41` overflows. -/
theorem test_xsdrsize : (after (step (idle [0x08, 0x00, 0x00, 0x00, 0x40] []))).map
    (fun t => (t.ctx.sdrSize, t.ctl.outcome)) = some (64, none) := by decide
theorem test_xsdrsize_overflow : (after (step (idle [0x08, 0x00, 0x00, 0x00, 0x41] []))).map
    (fun t => (t.ctx.sdrSize, t.ctl.outcome)) = some (8, some .overflow) := by decide

/-- R186: `09 FF 00` against a target of zeros matches and goes on to RunTest; against ones the run fails in Exit1DR
after all 11 pulses. -/
theorem test_xsdrtdo_match : (after (step (idle [0x09, 0xFF, 0x00] zeros))).map
    (fun t => (t.ctl.outcome, t.pins.tapState, t.pins.trace.length)) = some (none, .runTest, 13) := by decide
theorem test_xsdrtdo_mismatch : (after (step (idle [0x09, 0xFF, 0x00] ones))).map
    (fun t => (t.ctl.outcome, t.pins.tapState, t.pins.trace.length)) = some (some .fail, .exit1DR, 11) := by decide

/-- R200: `0C 0F` from RunTest: TMS 100, then seven fast pulses and one full one, staying in ShiftDR. -/
theorem test_xsdrb : (after (step (idle [0x0C, 0x0F] zeros))).map (fun t => (t.pins.trace, t.pins.tapState)) =
    some ([.full false true false, .full false false false, .full false false false,
      .fast true false, .fast true false, .fast true false, .fast true false, .fast false false,
      .fast false false, .fast false false, .full false false false], .shiftDR) := by decide

/-- R201: in ShiftDR `0D F0` drives four zeros and three ones fast, then one full pulse, staying. -/
theorem test_xsdrc : (after (step (inShift [0x0D, 0xF0] zeros))).map (fun t => (t.pins.trace, t.pins.tapState)) =
    some ([.fast false false, .fast false false, .fast false false, .fast false false, .fast true false,
      .fast true false, .fast true false, .full true false false], .shiftDR) := by decide
/-- R204: outside ShiftDR it is the model fault, no pin driven, both bytes taken. -/
theorem test_xsdrc_outside : (after (step (idle [0x0D, 0xF0] zeros))).map
    (fun t => (t.ctl.outcome, t.ctl.faulted, t.pins.trace, t.source.cursor)) =
    some (none, some .quickOutsideShift, [], 2) := by decide

/-- R202: in ShiftDR `0E 01` shifts, exits, and goes on to RunTest. -/
theorem test_xsdre : (after (step (inShift [0x0E, 0x01] zeros))).map (fun t => (t.pins.trace, t.pins.tapState)) =
    some ([.fast true false, .fast false false, .fast false false, .fast false false, .fast false false,
      .fast false false, .fast false false, .full false true false, .full false true false,
      .full false false false], .runTest) := by decide

/-- R206: `0F 3C 3C` against a target that loops TDI back (after three navigation pulses) matches and stays. -/
theorem test_xsdrtdob : (after (step (idle [0x0F, 0x3C, 0x3C] (bits [1, 1, 1, 0, 0, 1, 1, 1, 1, 0, 0])))).map
    (fun t => (t.ctl.outcome, t.pins.tapState, t.pins.tmsHold, t.pins.tdoIn)) =
    some (none, .shiftDR, false, []) := by decide
/-- R129: with 8-bit compare buffers only the low byte of a 16-bit scan is compared. -/
theorem test_xsdrtdob_bound : (after (step (bounded [0x0F, 0x00, 0x00, 0x00, 0xFF]
      (bits [0, 0, 0, 1, 1, 1, 1, 1, 1, 1, 1] ++ ones)))).map
    (fun t => (t.ctl.outcome, t.ctx.tdoCaptured, t.pins.trace.length)) = some (none, [0xFF], 19) := by decide

/-- R207: in ShiftDR `10 00 FF` matches ones and fails against zeros. -/
theorem test_xsdrtdoc_match : (after (step (inShift [0x10, 0x00, 0xFF] ones))).map
    (fun t => (t.ctl.outcome, t.pins.tapState)) = some (none, .shiftDR) := by decide
theorem test_xsdrtdoc_mismatch : (after (step (inShift [0x10, 0x00, 0xFF] zeros))).map
    (fun t => (t.ctl.outcome, t.pins.tapState)) = some (some .fail, .shiftDR) := by decide

/-- R208: with the mask 0F and the end state PauseDR, `11 A5 05` on a target looping TDI back matches and goes from
Exit1DR with TMS 0 to PauseDR. -/
theorem test_xsdrtdoe : (after (step
      { inShift [0x11, 0xA5, 0x05] (bits [1, 0, 1, 0, 0, 1, 0, 1, 0]) with
        ctx := { Context.reset wide with
          sdrSize := 8, endDrState := .pauseDR, tdoMask := List.replicate 8 0x0F } })).map
    (fun t => (t.ctl.outcome, tmsOf t, t.pins.tapState)) =
    some (none, bits [0, 0, 0, 0, 0, 0, 0, 1, 0], .pauseDR) := by decide

/-- R220: from RunTest `12 06` drives TMS 1010 to PauseDR. -/
theorem test_xstate : (after (step (idle [0x12, 0x06] zeros))).map (fun t => (tmsOf t, t.pins.tapState)) =
    some (bits [1, 0, 1, 0], .pauseDR) := by decide
/-- R221: `12 10` is the model fault, no pin driven. -/
theorem test_xstate_bad : (after (step (idle [0x12, 0x10] zeros))).map
    (fun t => (t.ctl.outcome, t.ctl.faulted, t.pins.trace)) = some (none, some .badStateId, []) := by decide

/-- R168, R169: `13 01` selects PauseIR, `14 FF` PauseDR. -/
theorem test_xendir : (after (step (idle [0x13, 0x01] []))).map
    (fun t => (t.ctx.endIrState, t.ctx.endDrState, t.pins.trace)) = some (.pauseIR, .runTest, []) := by decide
theorem test_xenddr : (after (step (idle [0x14, 0xFF] []))).map
    (fun t => (t.ctx.endIrState, t.ctx.endDrState, t.pins.trace)) = some (.runTest, .pauseDR, []) := by decide

/-- R182: `15 00 08 A5` behaves as `02 08 A5`. -/
theorem test_xsir2 : (after (step (fresh [0x15, 0x00, 0x08, 0xA5] zeros))).map
    (fun t => (drivenPins t.pins.trace, t.pins.tapState)) =
    (after (step (fresh [0x02, 0x08, 0xA5] zeros))).map (fun t => (drivenPins t.pins.trace, t.pins.tapState)) := by
  decide
/-- R181: a length of 65 with a maximum of 64 overflows after the length bytes. -/
theorem test_xsir2_overflow : (after (step (fresh [0x15, 0x00, 0x41, 0xA5] zeros))).map
    (fun t => (t.ctl.outcome, t.source.cursor, t.pins.trace)) = some (some .overflow, 3, []) := by decide

/-- R226: an unsupported byte fails the run after itself. R51: the end of the source, at the opcode and inside an
operand. R52: a source that blocks. -/
theorem test_unsupported : endOf (idle [0x16, 0x41] zeros) = some (some .fail, none) := by decide
theorem test_exhausted : endOf (idle [] zeros) = some (some .exhausted, none) ∧
    (after (step (idle [0x04, 0x00] zeros))).map (fun t => (t.ctl.outcome, t.source.cursor, t.ctx.pendingRuntest)) =
      some (some .exhausted, 2, 0) := by decide
theorem test_blocked : step { idle [0x04, 0x00] zeros with source := ⟨bytesAt 0 [0x04, 0x00], .blocks, 0⟩ } =
    .fault .sourceBlocked := rfl
/-- R256: past the bytes listed an infinite stream goes on, so `03 AA` at 24 bits takes its last two data bytes from it,
two free values, and the scan completes where a finite source would be exhausted. -/
theorem test_endless : (after (step
      { machine wide .runTest false 24 [0x03, 0xAA] zeros with source := ⟨bytesAt 0 [0x03, 0xAA], .endless 7, 0⟩ })).map
    (fun t => (t.ctl.outcome, t.ctx.tdiBuf.getD 2 0, t.source.cursor, t.pins.tapState)) =
    some (none, 0xAA, 4, .runTest) := rfl
theorem test_endless_byte : sourceByte ⟨bytesAt 0 [0x03], .endless 7, 0⟩ 0 = some 0x03 ∧
    sourceByte ⟨bytesAt 0 [0x03], .endless 7, 0⟩ 1 = some (Config.endlessByte 7 1) := ⟨rfl, rfl⟩
/-- R55, R249: an operand cut short leaves its bytes in the buffer, from the top position down. -/
theorem test_cut_short : (after (step (machine wide .runTest false 24 [0x03, 0xAA, 0xBB] zeros))).map
    (fun t => (t.ctl.outcome, t.ctx.tdiBuf.take 3, t.pins.trace)) =
    some (some .exhausted, [0x00, 0xBB, 0xAA], []) := by decide

/-! ## Witnesses: each shows the hypotheses of an obligation met by concrete states and operands -/

/-- The small machines have the invariant. -/
theorem machine_inv (p : Params) (tap : TapState) (hold : Bool) (sdr : Word32) (bs : List Byte) (tdo : List Bool)
    (hp : p.ok) (hs : sdr.toNat ≤ p.maxTdiBits) (hh : tap = .shiftDR ∨ tap = .shiftIR → hold = false)
    (hw : Memory.wf (bytesAt 0 bs)) : Inv (machine p tap hold sdr bs tdo) where
  cfgOk := hp
  sdrSizeFits := hs
  tdiBufSize := List.length_replicate
  tdoExpectedSize := List.length_replicate
  tdoMaskSize := List.length_replicate
  tdoCapturedSize := List.length_replicate
  endIr := .inl rfl
  endDr := .inl rfl
  shiftHold := hh
  oneEnd := .inl rfl
  endedStarted := fun _ => rfl
  streamWf := hw
  callsWf := fun _ h => nomatch h

theorem test_witness_EncodedInstructionDecodesBackToItself : defaultOpcodes.distinct ∧
    (Instr.xsir 9 [0x01, 0xA5]).wellFormed wide 16 = true ∧ (Instr.xsir2 65535 []).wellFormed wide 16 = true ∧
    (Instr.xsdrtdo [] []).wellFormed wide 0 = true ∧ (Instr.xruntest 0xFFFFFFFF).wellFormed wide 64 = true :=
        by decide

theorem test_witness_DecodedInstructionIsTheOneItsBytesEncode :
    decode wide 0 [0x09, 0x00] = .instr (.xsdrtdo [] []) 1 ∧
    decode wide 9 [0x09, 1, 2, 3, 4, 5] = .instr (.xsdrtdo [1, 2] [3, 4]) 5 := by decide

theorem test_witness_StepRunsTheDecodedInstruction : inRun (idle [0x12, 0x06] zeros) = true ∧
    decode wide 8 (fetchWindow (idle [0x12, 0x06] zeros)) = .instr (.xstate 6) 2 := by decide

theorem test_witness_StepRunsTheInstructionTheStreamHolds :
    let s := idle [0x03, 0x81, 0x00] zeros
    inRun s = true ∧ s.cfg.opcodes.distinct ∧ (Instr.xsdr [0x81]).wellFormed s.cfg s.ctx.sdrSize = true ∧
    sourceByte s.source s.source.cursor = some (s.cfg.opcodes.byteOf .xsdr) ∧
    (∀ k < (operandBytes (.xsdr [0x81])).length,
      sourceByte s.source (s.source.cursor + 1 + k) = (operandBytes (.xsdr [0x81]))[k]?) ∧
    (after (step s)).map (·.source.cursor) = some 2 := by decide

theorem test_witness_IntegerOperandsAreBigEndian : defaultOpcodes.distinct ∧
    decode wide 8 [0x04, 0x00, 0x00, 0x01, 0x02] = .instr (.xruntest 258) 5 ∧
    decode wide 8 [0x15, 0x01, 0x02] = .instr (.xsir2 258 []) 3 := by decide

theorem test_witness_StepMovesTheCursorByTheInstructionLength : inRun (idle [0x07, 0x20] []) = true ∧
    decode wide 8 (fetchWindow (idle [0x07, 0x20] [])) = .instr (.xrepeat 0x20) 2 ∧
    ∃ t, step (idle [0x07, 0x20] []) = .next t := ⟨by decide, by decide, _, rfl⟩

theorem test_witness_UnsupportedOpcodeFailsTheRunAfterItsOneByte : inRun (idle [0x0A] []) = true ∧
    sourceByte (idle [0x0A] []).source 0 = some 0x0A ∧ decodeOpcode defaultOpcodes 0x0A = none ∧
    decodeOpcode defaultOpcodes 0xFF = none := by decide

/-- At the opcode byte, inside a fixed operand, and inside a vector. -/
theorem test_witness_SourceEndingInAnInstructionExhaustsTheRun :
    (idle [] []).source.tail = .eos ∧ inRun (idle [] []) = true ∧
    decode wide 8 (fetchWindow (idle [] [])) = .exhausted 0 ∧
    decode wide 8 (fetchWindow (idle [0x08, 0, 0, 0] [])) = .exhausted 4 ∧
    decode wide 8 (fetchWindow (idle [0x09, 0x01] [])) = .cutShort (.xsdrtdo [0x01] []) 2 := by decide

theorem test_witness_SourceThatBlocksLeavesNoStep :
    let s : State := { idle [] [] with source := ⟨[], .blocks, 0⟩ }
    let u : State := { idle [] [] with source := ⟨bytesAt 0 [0x03], .blocks, 0⟩ }
    let w : State := { idle [] [] with source := ⟨bytesAt 0 [0x12, 0x06], .blocks, 0⟩ }
    let v : State := { idle [] [] with source := ⟨bytesAt 0 [0x16], .blocks, 0⟩ }
    let e : State := { idle [] [] with source := ⟨bytesAt 0 [0x03], .endless 0, 0⟩ }
    inRun s = true ∧ s.source.tail = .blocks ∧ decode wide 8 (fetchWindow s) = .exhausted 0 ∧
    inRun u = true ∧ u.source.tail = .blocks ∧ decode wide 8 (fetchWindow u) = .cutShort (.xsdr []) 1 ∧
    inRun w = true ∧ decode wide 8 (fetchWindow w) = .instr (.xstate 6) 2 ∧
    inRun v = true ∧ decode wide 8 (fetchWindow v) = .unsupported 0x16 ∧
    inRun e = true ∧ e.source.tail = .endless 0 ∧ (idle [] []).source.tail ≠ .blocks ∧
    inRun { s with ctl := ⟨some .fail, none, [], true⟩ } = false := by decide

/-- A position that is read, one beyond the capacity, one the operand is too short for, one above the operand. -/
theorem test_witness_ReadVectorFillsDownwardFromTheTopPosition :
    fillVector 2 2 [0xAA, 0xBB] [1, 2] = [0xBB, 0xAA] ∧ fillVector 1 2 [0xAA, 0xBB] [1] = [0xBB] ∧
    fillVector 2 2 [0xAA] [1, 2] = [1, 0xAA] ∧ fillVector 3 2 [0xAA, 0xBB] [1, 2, 3] = [0xBB, 0xAA, 3] := by decide

theorem test_witness_TransitionTableHasTheListedProperties : tapNext .captureDR false = .shiftDR ∧
    tapNext .exit2DR false = .shiftDR ∧ tapNext .captureIR false = .shiftIR ∧ tapNext .exit2IR false = .shiftIR ∧
    tapNext .testLogicReset true = .testLogicReset ∧ tapNext .pauseIR false = .pauseIR := by decide

/-- The pair at the diameter (90_conflicts.md C9). -/
theorem test_witness_RouteReachesEveryTargetInDistSteps : TapState.captureDR ≠ .exit2IR ∧
    tapDist .captureDR .exit2IR = 8 ∧
    routeTms 8 .captureDR .exit2IR = bits [1, 1, 1, 1, 0, 1, 0, 1] := by decide

theorem test_witness_NoTmsSequenceIsShorterThanTheRoute :
    (bits [1, 1, 1, 1, 0, 1, 0, 1]).foldl tapNext .captureDR = .exit2IR ∧
    [].foldl tapNext TapState.shiftDR = .shiftDR := by decide

theorem test_witness_ShiftCheckedDrivesEveryBitLeastSignificantFirst :
    (inShift [] []).pins.tapState = .shiftDR ∧
    (machine wide .shiftIR false 8 [] []).pins.tapState = .shiftIR := by decide

theorem test_witness_ShiftCheckedCapturesTheAnswersBelowTheBound :
    (inShift [] []).ctx.tdoCaptured.length = (inShift [] []).cfg.cmpBytes ∧
    (bounded [] []).ctx.tdoCaptured.length = (bounded [] []).cfg.cmpBytes := by decide

theorem test_witness_CheckedAndFastShiftsDriveTheSamePins :
    (inShift [] []).pins.tapState = .shiftDR ∧ (inShift [] []).pins.tmsHold = false := by decide

/-- 16 bits on 8-bit compare buffers, answers alike below bit 8 and unlike above; and a bound equal to the maximum. -/
theorem test_witness_BitsAboveTheCompareBoundAreShiftedButNeverKept :
    let s := machine narrow .shiftDR false 16 [] (bits [1, 0, 1, 0, 0, 1, 0, 1, 1, 1, 1, 1, 1, 1, 1, 1])
    let u := machine narrow .shiftDR false 16 [] (bits [1, 0, 1, 0, 0, 1, 0, 1, 0, 0, 0, 0, 0, 0, 0, 0])
    s.cfg = u.cfg ∧ s.ctx = u.ctx ∧ s.cfg.cmpBytes < ceil8 16 ∧ s.ctx.tdoCaptured.length = s.cfg.cmpBytes ∧
    s.pins.tapState = .shiftDR ∧
    (sampledTdo (shiftChecked 16 true s).pins.trace).take 8 = (sampledTdo (shiftChecked 16 true u).pins.trace).take 8 ∧
    sampledTdo (shiftChecked 16 true s).pins.trace ≠ sampledTdo (shiftChecked 16 true u).pins.trace ∧
    wide.ok ∧ wide.maxCompareBits = wide.maxTdiBits ∧ 64 ≤ wide.maxTdiBits := by decide

/-- The widest scan, and one of no bits. -/
theorem test_witness_BigEndianVectorShiftsOutItsValueBitByBit : Inv (inShift [] []) ∧
    (inShift [] []).pins.tapState = .shiftDR ∧ 64 ≤ (inShift [] []).cfg.maxTdiBits ∧
    0 ≤ (inShift [] []).cfg.maxTdiBits :=
  ⟨machine_inv _ _ _ _ _ _ (by decide) (by decide) (by decide) (by decide), by decide, by decide, by decide⟩

theorem test_witness_PostScanAppliesPendingCyclesElseGoesToTheEndState :
    (idle [] []).ctx.pendingRuntest = 0 ∧
    { (idle [] []).ctx with pendingRuntest := 1 }.pendingRuntest ≠ 0 := by decide

/-- A mask of no bytes, of all the bytes of the widest scan, and one wider than the compare buffers. -/
theorem test_witness_XtdomaskLoadsTheMaskAndNothingElse :
    (Inv (machine wide .runTest false 0 [] []) ∧ ([] : List Byte).length = ceil8 (scanBits
        (machine wide .runTest false 0 [] []))) ∧
    (Inv (machine wide .runTest false 64 [] []) ∧ (List.replicate 8 (0 : Byte)).length = ceil8 (scanBits
        (machine wide .runTest false 64 [] []))) ∧
    (Inv (bounded [] []) ∧ ([1, 2] : List Byte).length = ceil8 (scanBits (bounded [] []))) :=
  ⟨⟨machine_inv _ _ _ _ _ _ (by decide) (by decide) (by decide) (by decide), by decide⟩,
   ⟨machine_inv _ _ _ _ _ _ (by decide) (by decide) (by decide) (by decide), by decide⟩,
   ⟨machine_inv _ _ _ _ _ _ (by decide) (by decide) (by decide) (by decide), by decide⟩⟩

/-- The count there, and the stream ending before it. -/
theorem test_witness_XrepeatReadsItsCountAndChangesNothing :
    let s := idle [0x07, 0xFF] []
    let u := idle [0x07] []
    inRun s = true ∧ s.cfg.opcodes.distinct ∧ sourceByte s.source 0 = some s.cfg.opcodes.xrepeat ∧
    sourceByte s.source 1 = some 0xFF ∧ inRun u = true ∧ u.cfg.opcodes.distinct ∧
    sourceByte u.source 0 = some u.cfg.opcodes.xrepeat ∧ sourceByte u.source 1 = none ∧
    u.source.tail = .eos := by decide

theorem test_witness_XsdrsizeSetsTheWidthOrOverflows :
    (64 : Word32).toNat ≤ (idle [] []).cfg.maxTdiBits ∧ (idle [] []).cfg.maxTdiBits < (65 : Word32).toNat :=
        by decide

/-- XSIR of no bits, XSIR2 of the maximum. -/
theorem test_witness_InstructionScanShiftsThroughShiftIR : Inv (idle [] []) ∧
    (∃ len : Byte, Instr.xsir 0 [] = .xsir len [] ∧ 0 = len.toNat) ∧ ([] : List Byte).length = ceil8 0 ∧
    (∃ len : BitVec 16, Instr.xsir2 64 (List.replicate 8 0) = .xsir2 len (List.replicate 8 0) ∧ 64 = len.toNat) ∧
    64 ≤ (idle [] []).cfg.maxTdiBits ∧ (List.replicate 8 (0 : Byte)).length = ceil8 64 :=
  ⟨machine_inv _ _ _ _ _ _ (by decide) (by decide) (by decide) (by decide), ⟨0, by decide⟩, by decide,
   ⟨64, by decide⟩, by decide, by decide⟩

theorem test_witness_InstructionScanLongerThanTheMaximumOverflows :
    (∃ len : Byte, Instr.xsir 65 [] = .xsir len [] ∧ 65 = len.toNat) ∧
    (∃ len : BitVec 16, Instr.xsir2 65535 [] = .xsir2 len [] ∧ 65535 = len.toNat) ∧
    (idle [] []).cfg.maxTdiBits < 65 ∧ (Instr.xsir 65 []).wellFormed wide 8 = true :=
  ⟨⟨65, by decide⟩, ⟨65535, by decide⟩, by decide, by decide⟩

theorem test_witness_XsdrShiftsThroughShiftDRWithoutCompare : Inv (idle [] []) ∧
    ([0x81] : List Byte).length = ceil8 (scanBits (idle [] [])) :=
  ⟨machine_inv _ _ _ _ _ _ (by decide) (by decide) (by decide) (by decide), by decide⟩

/-- Both ends of the compare: a scan that agrees and one that does not. -/
theorem test_witness_XsdrtdoComparesAfterTheWholeScan : Inv (idle [] zeros) ∧ Inv (idle [] ones) ∧
    ([0xFF] : List Byte).length = ceil8 (scanBits (idle [] zeros)) ∧
    (after (exec (.xsdrtdo [0xFF] [0x00]) (idle [] zeros))).map (matched 8) = some true ∧
    (after (exec (.xsdrtdo [0xFF] [0x00]) (idle [] ones))).map (matched 8) = some false :=
  ⟨machine_inv _ _ _ _ _ _ (by decide) (by decide) (by decide) (by decide),
   machine_inv _ _ _ _ _ _ (by decide) (by decide) (by decide) (by decide), by decide, by decide, by decide⟩

theorem test_witness_XsdrbEntersShiftDRAndStays : Inv (idle [] []) ∧ Inv (inShift [] []) ∧
    ([0x0F] : List Byte).length = ceil8 (scanBits (idle [] [])) :=
  ⟨machine_inv _ _ _ _ _ _ (by decide) (by decide) (by decide) (by decide),
   machine_inv _ _ _ _ _ _ (by decide) (by decide) (by decide) (by decide), by decide⟩

theorem test_witness_XsdrcContinuesInShiftDR : Inv (inShift [] []) ∧
    ([0xF0] : List Byte).length = ceil8 (scanBits (inShift [] [])) ∧ (inShift [] []).pins.tapState = .shiftDR :=
  ⟨machine_inv _ _ _ _ _ _ (by decide) (by decide) (by decide) (by decide), by decide, by decide⟩

/-- Also with no bit to shift. -/
theorem test_witness_XsdreEndsTheQuickScan :
    (Inv (inShift [] []) ∧ ([0x01] : List Byte).length = ceil8 (scanBits (inShift [] [])) ∧
      (inShift [] []).pins.tapState = .shiftDR) ∧
    Inv (machine wide .shiftDR false 0 [] []) ∧
    ([] : List Byte).length = ceil8 (scanBits (machine wide .shiftDR false 0 [] [])) :=
  ⟨⟨machine_inv _ _ _ _ _ _ (by decide) (by decide) (by decide) (by decide), by decide, by decide⟩,
   machine_inv _ _ _ _ _ _ (by decide) (by decide) (by decide) (by decide), by decide⟩

theorem test_witness_XsdrtdobEntersShiftDRAndCompares : Inv (idle [] zeros) ∧
    ([0x3C] : List Byte).length = ceil8 (scanBits (idle [] zeros)) ∧
    (after (exec (.xsdrtdob [0x3C] [0x00]) (idle [] zeros))).map (matched 8) = some true ∧
    (after (exec (.xsdrtdob [0x3C] [0x01]) (idle [] zeros))).map (matched 8) = some false :=
  ⟨machine_inv _ _ _ _ _ _ (by decide) (by decide) (by decide) (by decide), by decide, by decide, by decide⟩

theorem test_witness_XsdrtdocContinuesAndCompares : Inv (inShift [] zeros) ∧
    ([0x3C] : List Byte).length = ceil8 (scanBits (inShift [] zeros)) ∧
    (inShift [] zeros).pins.tapState = .shiftDR ∧
    (after (exec (.xsdrtdoc [0x3C] [0x00]) (inShift [] zeros))).map (matched 8) = some true ∧
    (after (exec (.xsdrtdoc [0x3C] [0x01]) (inShift [] zeros))).map (matched 8) = some false :=
  ⟨machine_inv _ _ _ _ _ _ (by decide) (by decide) (by decide) (by decide), by decide, by decide, by decide,
   by decide⟩

theorem test_witness_XsdrtdoeEndsTheQuickScanAndCompares : Inv (inShift [] zeros) ∧
    ([0x3C] : List Byte).length = ceil8 (scanBits (inShift [] zeros)) ∧
    (inShift [] zeros).pins.tapState = .shiftDR ∧
    (after (exec (.xsdrtdoe [0x3C] [0x00]) (inShift [] zeros))).map (matched 8) = some true ∧
    (after (exec (.xsdrtdoe [0x3C] [0x01]) (inShift [] zeros))).map (matched 8) = some false :=
  ⟨machine_inv _ _ _ _ _ _ (by decide) (by decide) (by decide) (by decide), by decide, by decide, by decide,
   by decide⟩

theorem test_witness_QuickContinueOrEndOutsideShiftDRFaults : (idle [] []).pins.tapState ≠ .shiftDR ∧
    (∀ i ∈ [Instr.xsdrc [1], .xsdre [1], .xsdrtdoc [1] [2], .xsdrtdoe [1] [2]],
      needsShiftDR i = true ∧ i.wellFormed wide 8 = true) ∧
    ([1] : List Byte).length = ceil8 (scanBits (idle [] [])) ∧
    (idle [] []).ctx.tdiBuf.length = (idle [] []).cfg.tdiBytes ∧
    (idle [] []).ctx.tdoExpected.length = (idle [] []).cfg.cmpBytes := by decide

theorem test_witness_XstateMovesToTheStateItsByteNames : (0 : Byte).toNat ≤ 15 ∧ (15 : Byte).toNat ≤ 15 := by decide

theorem test_witness_XstateByteAboveFifteenFaults : 15 < (16 : Byte).toNat ∧ 15 < (255 : Byte).toNat := by decide

/-- The two ways out: the run goes on, or XSDRSIZE ends it. -/
theorem test_witness_ContextOpcodesDriveNoPin :
    (contextOnly (.xtdomask [1]) = true ∧ (Instr.xtdomask [1]).wellFormed wide 8 = true ∧
      ∃ t, exec (.xtdomask [1]) (idle [] []) = .next t) ∧
    (contextOnly (.xsdrsize 65) = true ∧ tooLong wide (.xsdrsize 65) = true ∧
      ∃ t, exec (.xsdrsize 65) (idle [] []) = .next t) :=
  ⟨⟨by decide, by decide, _, rfl⟩, ⟨by decide, by decide, _, rfl⟩⟩

theorem test_witness_NoStepOfARunWritesTheStreamOrTheConfiguration : inRun (idle [0x00] []) = true ∧
    ∃ t, step (idle [0x00] []) = .next t := ⟨by decide, _, rfl⟩

/-- Each register written by its writer. -/
theorem test_witness_EachContextRegisterHasOneWriter :
    (after (exec (.xsdrsize 9) (idle [] []))).map (·.ctx.sdrSize) = some 9 ∧ (idle [] []).ctx.sdrSize ≠ 9 ∧
    (after (exec (.xendir 1) (idle [] []))).map (·.ctx.endIrState) = some .pauseIR ∧
    (idle [] []).ctx.endIrState ≠ .pauseIR ∧
    (after (exec (.xenddr 1) (idle [] []))).map (·.ctx.endDrState) = some .pauseDR ∧
    (idle [] []).ctx.endDrState ≠ .pauseDR ∧
    (after (exec (.xtdomask [1]) (idle [] []))).map (·.ctx.tdoMask.head?) = some (some 1) ∧
    (idle [] []).ctx.tdoMask.head? ≠ some 1 := by decide

/-- With a count pending: a quick scan keeps it, a scan uses it up. -/
theorem test_witness_PendingCountSurvivesAllButPostScan :
    let s : State := { inShift [] zeros with ctx := { Context.reset wide with sdrSize := 8, pendingRuntest := 2 } }
    (after (exec (.xsdre [1]) s)).map (·.ctx.pendingRuntest) = some 2 ∧ runsPostScan (.xsdre [1]) = false ∧
    (after (exec (.xsdr [1]) s)).map (·.ctx.pendingRuntest) = some 0 ∧ runsPostScan (.xsdr [1]) = true := by decide

theorem test_witness_TraceGrowsAndAnswersAreTakenInOrder :
    (after (exec (.xstate 6) (idle [] (bits [0, 1, 1, 0, 1])))).map
      (fun t => (sampledTdo t.pins.trace, t.pins.tdoIn)) = some (bits [0, 1, 1, 0], [true]) := by decide

/-- An overflow, a model fault and an exhausted source. -/
theorem test_witness_RunEndingBeforeTheShiftDrivesNoPin : runEnded (idle [] []) = false ∧
    ∀ i ∈ [Instr.xsdrsize 65, .xsir 65 [], .xstate 16, .xsdrc [1], .xsdr []],
      (after (exec i (idle [] []))).map (fun t => (runEnded t, t.ctl.outcome == some .fail)) = some (true,
          false) := by
  decide

theorem test_witness_FastPulsesAreDrivenOnlyInShiftDRWithTmsLow : Inv (inShift [] zeros) ∧
    ∃ (t : State) (later : List PinEvent), exec (.xsdrc [0xF0]) (inShift [] zeros) = .next t ∧
      t.pins.trace = (inShift [] zeros).pins.trace ++ [] ++ [.fast false false] ++ later :=
  ⟨machine_inv _ _ _ _ _ _ (by decide) (by decide) (by decide) (by decide), _, _, rfl, rfl⟩

/-- An ended machine keeps the invariant with well-formed calls pending. -/
theorem ended_inv {s : State} (c : Control) (h : Inv s) (h1 : c.outcome = none ∨ c.faulted = none)
    (h2 : ∀ r ∈ c.calls, Memory.wf r.stream) (h3 : c.started = true) : Inv { s with ctl := c } :=
  ⟨h.cfgOk, h.sdrSizeFits, h.tdiBufSize, h.tdoExpectedSize, h.tdoMaskSize, h.tdoCapturedSize, h.endIr, h.endDr,
   h.shiftHold, h1, fun _ => h3, h.streamWf, h2⟩

/-- Inside a run, and between runs with a call pending. -/
theorem test_witness_EveryStepKeepsTheInvariant :
    (Inv (idle [0x12, 0x06] zeros) ∧ ∃ t, step (idle [0x12, 0x06] zeros) = .next t) ∧
    Inv { idle [] [] with ctl := ⟨some .fail, none, [⟨[], .eos, zeros⟩], true⟩ } ∧
    ∃ t, step { idle [] [] with ctl := ⟨some .fail, none, [⟨[], .eos, zeros⟩], true⟩ } = .next t :=
  ⟨⟨machine_inv _ _ _ _ _ _ (by decide) (by decide) (by decide) (by decide), _, rfl⟩,
   ended_inv _ (machine_inv _ _ _ _ _ _ (by decide) (by decide) (by decide) (by decide)) (by decide) (by decide) rfl,
   _, rfl⟩

/-- A machine five pulses of TMS = 1 after any state. -/
theorem test_witness_EveryStepKeepsTheTapTracked :
    let s : State := { fresh [0x12, 0x06] zeros with
      pins := ⟨.testLogicReset, true, List.replicate 5 (.full false true false), zeros, 0⟩ }
    TapTracked s ∧ ∃ t, step s = .next t :=
  ⟨⟨fun start => by cases start <;> decide, by decide⟩, _, rfl⟩

/-- Every one of the six events. -/
theorem test_witness_RunEndsOnlyOnTheSixEvents :
    endOf (idle [0x00] []) = some (some .success, none) ∧
    endOf (idle [0x09, 0x00, 0x01] zeros) = some (some .fail, none) ∧
    endOf (idle [0x0B] []) = some (some .fail, none) ∧
    endOf (idle [0x02, 0x41] []) = some (some .overflow, none) ∧
    endOf (idle [0x03] []) = some (some .exhausted, none) ∧
    endOf (idle [0x12, 0xFF] []) = some (none, some .badStateId) ∧
    endOf (idle [0x0E, 0x01] []) = some (none, some .quickOutsideShift) := by decide

theorem test_witness_SuccessComesOnlyFromXcomplete : inRun (idle [0x00] []) = true ∧
    (∃ t, step (idle [0x00] []) = .next t ∧ RunSucceeded t) ∧
    inRun (idle [0x03] []) = true ∧ (idle [0x03] []).source.tail = .eos ∧
    decode wide 8 (fetchWindow (idle [0x03] [])) = .cutShort (.xsdr []) 1 :=
  ⟨by decide, ⟨_, rfl, by decide, by decide⟩, by decide, by decide, by decide⟩

/-- A machine at power-up with a call pending, its unspecified items whatever an old run left: in ShiftDR, 5-bit scans,
bytes and transactions of long ago. -/
def poweredUp (calls : List RunCall) : State :=
  powerUp { inShift [0x16, 0x00] zeros with
    ctx := { Context.reset wide with sdrSize := 5, pendingRuntest := 9, tdoMask := List.replicate 8 0 }
    source := ⟨bytesAt 0 [0x16, 0x00], .eos, 2⟩
    ctl := ⟨some .fail, none, calls, true⟩ }

/-- After an end, and at power-up. -/
theorem test_witness_EndedRunStaysAsItIs :
    let s : State := { idle [0x00] [] with ctl := ⟨none, some .badStateId, [], true⟩ }
    runEnded s = true ∧ s.ctl.calls = [] ∧
    (poweredUp []).ctl.started = false ∧ runEnded (poweredUp []) = false ∧ (poweredUp []).ctl.calls = [] := by decide

/-- R41: power-up reads no byte and drives no pin of its own, then `Run()` starts from the defaults. -/
theorem test_power_up : (after (step (poweredUp []))).map
      (fun t => (t.source.cursor, t.pins.trace, t.ctl.outcome, t.ctl.faulted)) = some (0, [], none, none) ∧
    (after (step (poweredUp [⟨bytesAt 0 [0x00], .eos, zeros⟩]))).map
      (fun t => (t.pins.trace.length, t.ctx.sdrSize, t.ctx.pendingRuntest, t.source.cursor, inRun t)) =
      some (32, 32, 0, 0, true) := by decide

theorem test_witness_NewRunStartsFromTheDefaults :
    let s : State := { idle [] [] with ctl := ⟨some .fail, none, [⟨bytesAt 0 [0x00], .eos, zeros⟩], true⟩ }
    let u := poweredUp [⟨bytesAt 0 [0x00], .eos, zeros⟩]
    runEnded s = true ∧ s.ctl.calls = [⟨bytesAt 0 [0x00], .eos, zeros⟩] ∧
    u.ctl.started = false ∧ u.ctl.calls = [⟨bytesAt 0 [0x00], .eos, zeros⟩] ∧
    s.cfg.ok ∧ (∀ r ∈ s.ctl.calls, Memory.wf r.stream) ∧
    (after (step s)).map (fun t => (t.pins.tapState, t.pins.tdoIn.length, t.ctx.sdrSize, t.source.cursor)) =
      some (.testLogicReset, 8, 32, 0) := by decide

/-- The last run's end, and power-up. -/
theorem test_witness_NewRunForgetsThePreviousOne :
    let s : State := { idle [0x16] [] with ctl := ⟨some .fail, none, [⟨[], .eos, []⟩], true⟩ }
    let u : State := poweredUp [⟨[], .eos, []⟩]
    runEnded s = true ∧ u.ctl.started = false ∧ s.ctl.calls = u.ctl.calls ∧ s.ctl.calls ≠ [] ∧ s.cfg = u.cfg ∧
    s.pins.freeDraws = u.pins.freeDraws ∧ s.pins.tapState ≠ u.pins.tapState := by decide

end Sys2Proof.Tests
end

/-!
O6 (30_encoding.md R70): the decoder reads back what the encoder writes, the fetch window holds an instruction whose
bytes stand at the cursor, and so the step runs it and leaves the cursor behind it.
-/

namespace Sys2Proof

theorem decode_byteOf_cons (p : Params) (sdr : Word32) (hd : p.opcodes.distinct) (o : Opcode) (bs : List Byte) :
    decode p sdr (p.opcodes.byteOf o :: bs) = decodeOperands p sdr o bs := by
  simp only [decode, decodeOpcode_byteOf p.opcodes hd o]

theorem takeWord_wordBytes_append (mk : Word32 → Instr) (w : Word32) (rest : List Byte) :
    takeWord mk (wordBytes w ++ rest) = .instr (mk w) 5 :=
  congrArg (fun v => Decoded.instr (mk v) 5) (word_round w)

theorem takeIr16_append (p : Params) (len : BitVec 16) (tdi rest : List Byte)
    (h : tdi.length = irDataBytes p len.toNat) :
    takeIr16 p (byteAt len.toNat 1 :: byteAt len.toNat 0 :: (tdi ++ rest)) =
      .instr (.xsir2 len tdi) (3 + irDataBytes p len.toNat) := by
  rw [takeIr16, half_round]
  exact takeVector_append _ _ _ _ _ h

/-- Each operand format is read back from the bytes it is written as, whatever follows them (R71). -/
theorem decodeOperands_operandBytes_append (p : Params) (sdr : Word32) (i : Instr) (rest : List Byte)
    (hw : i.wellFormed p sdr = true) :
    decodeOperands p sdr i.opcode (operandBytes i ++ rest) = .instr i (instrLength p sdr i) := by
  cases i <;> simp only [Instr.wellFormed, Bool.and_eq_true, beq_iff_eq] at hw
  case xcomplete | xrepeat | xstate | xendir | xenddr => rfl
  case xruntest | xsdrsize => exact takeWord_wordBytes_append _ _ rest
  case xtdomask | xsdr | xsdrb | xsdrc | xsdre => exact takeVector_append _ _ _ _ _ hw
  case xsdrtdo | xsdrtdob | xsdrtdoc | xsdrtdoe => exact takeTwo_append _ _ _ _ _ hw.1 hw.2
  case xsir => exact takeVector_append _ _ _ _ _ hw
  case xsir2 => exact takeIr16_append _ _ _ _ hw

/-- Under an opcode map with distinct bytes a well-formed instruction decodes back from its bytes, whatever follows
them (R70, R74). -/
theorem decode_encode_append (p : Params) (sdr : Word32) (i : Instr) (rest : List Byte) (hd : p.opcodes.distinct)
    (hw : i.wellFormed p sdr = true) :
    decode p sdr (encode p i ++ rest) = .instr i (instrLength p sdr i) :=
  (decode_byteOf_cons p sdr hd i.opcode _).trans (decodeOperands_operandBytes_append p sdr i rest hw)

theorem encode_length_eq_succ (p : Params) (i : Instr) : (encode p i).length = 1 + (operandBytes i).length :=
  Nat.add_comm _ _

end Sys2Proof

namespace Sys2Proof.Machine

/-- In a run a whole instruction at the cursor is what the step runs, past its bytes (R141). -/
theorem step_of_decode_instr {s : State} {i : Instr} {n : Nat} (hr : inRun s = true)
    (hd : decode s.cfg s.ctx.sdrSize (fetchWindow s) = .instr i n) : step s = exec i (advance n s) := by
  simp only [step, stepWith, if_pos hr, hd]

/-- Running an instruction leaves the cursor where its fetch put it (R36). -/
theorem exec_advance_cursor {i : Instr} {n : Nat} {s t : State} (h : exec i (advance n s) = .next t) :
    t.source.cursor = s.source.cursor + n := by
  rw [(exec_quiet h).source, advance_source]

/-- The stream holds an instruction's bytes at an offset when it holds the opcode byte there and the operand bytes
after it. -/
theorem sourceByte_encode {src : ByteSource} {a : Nat} {p : Params} {i : Instr}
    (hop : sourceByte src a = some (p.opcodes.byteOf i.opcode))
    (hargs : ∀ k < (operandBytes i).length, sourceByte src (a + 1 + k) = (operandBytes i)[k]?) :
    ∀ k < (encode p i).length, sourceByte src (a + k) = (encode p i)[k]?
  | 0, _ => hop
  | k + 1, hk => by
    have hk' : k < (operandBytes i).length := Nat.lt_of_succ_lt_succ hk
    rw [encode, List.getElem?_cons_succ, ← hargs k hk', Nat.add_assoc, Nat.add_comm 1 k]

/-- The fetch window is long enough for every well-formed instruction, so one whose bytes stand at the cursor is what
the decoder reads there (R70, R72). -/
theorem decode_fetchWindow_of_holds {s : State} {i : Instr} (hd : s.cfg.opcodes.distinct)
    (hw : i.wellFormed s.cfg s.ctx.sdrSize = true)
    (hold : ∀ k < (encode s.cfg i).length, sourceByte s.source (s.source.cursor + k) = (encode s.cfg i)[k]?) :
    decode s.cfg s.ctx.sdrSize (fetchWindow s) = .instr i (encode s.cfg i).length := by
  have hlen := encode_length s.cfg s.ctx.sdrSize i hw
  have hfit : (encode s.cfg i).length ≤ longestInstr s.cfg s.ctx.sdrSize :=
    hlen.trans_le (instrLength_le _ _ i)
  obtain ⟨rest, hwin⟩ := sourceBytes_of_holds (encode s.cfg i) s.source s.source.cursor _ hfit hold
  rw [fetchWindow, hwin, decode_encode_append _ _ i rest hd hw, hlen]

/-- Settles O6: the fetch window begins with the instruction's bytes, which decode back to it, and no instruction moves
the cursor the fetch left. -/
theorem stepRunsTheInstructionTheStreamHolds : Obligations.StepRunsTheInstructionTheStreamHolds := by
  unfold Obligations.StepRunsTheInstructionTheStreamHolds
  intro s i hr hd hw hop hargs
  have hdec := decode_fetchWindow_of_holds hd hw (sourceByte_encode hop hargs)
  have hstep : step s = exec i (advance (1 + (operandBytes i).length) s) := by
    rw [step_of_decode_instr hr hdec, encode_length_eq_succ]
  refine ⟨hstep, fun t ht => ?_⟩
  rw [exec_advance_cursor (hstep.symm.trans ht), Nat.add_assoc]

end Sys2Proof.Machine

/-!
O22 (41_shift.md R129): an answer at or above the compare bound is put into no buffer, so what a checked shift captures,
and with it the compare, depends on the answers below the bound alone.
-/

namespace Sys2Proof.Machine

theorem setBufBit_of_cap_le {cap j : Nat} (h : cap ≤ j / 8) (buf : List Byte) (b : Bool) :
    setBufBit cap buf j b = buf := if_neg (Nat.not_lt.2 h)

/-- A bit is captured alike from two lists of answers that agree below the bound: below it the bit is the same, above
it none is put. -/
theorem setBufBit_getD_congr {cap : Nat} {x y : List Bool} (h : x.take (8 * cap) = y.take (8 * cap))
    (buf : List Byte) (j : Nat) :
    setBufBit cap buf j (x.getD j false) = setBufBit cap buf j (y.getD j false) := by
  by_cases hj : j / 8 < cap
  · have hlt : j < 8 * cap := by omega
    have hbit : x[j]? = y[j]? := by
      rw [← List.getElem?_take_of_lt hlt, h, List.getElem?_take_of_lt hlt]
    rw [List.getD_eq_getElem?_getD, List.getD_eq_getElem?_getD, hbit]
  · have hge := Nat.not_lt.1 hj
    rw [setBufBit_of_cap_le hge, setBufBit_of_cap_le hge]

theorem captureUpTo_congr {cap : Nat} {x y : List Bool} (h : x.take (8 * cap) = y.take (8 * cap))
    (buf : List Byte) (k : Nat) : captureUpTo cap x buf k = captureUpTo cap y buf k :=
  List.foldl_ext _ _ _ fun b j _ => setBufBit_getD_congr h b j

/-- The answers past those sampled before are the answers to the new transactions. -/
theorem Drives.sampledTdo_drop {p q : Pins} {more : List PinEvent} (h : Drives p q more) :
    (sampledTdo q.trace).drop (sampledTdo p.trace).length = sampledTdo more := by
  rw [h.trace, sampledTdo_append, List.drop_left]

theorem shiftChecked_cfg (n : Nat) (exit : Bool) (s : State) : (shiftChecked n exit s).cfg = s.cfg := by
  obtain ⟨_, -, -, -, -, -, hcfg, -⟩ := shiftChecked_spec n exit s
  exact hcfg

theorem shiftChecked_drivenPins (n : Nat) (exit : Bool) (s : State) :
    drivenPins (shiftChecked n exit s).pins.trace =
      drivenPins s.pins.trace ++ shiftPins n exit (bufBit s.ctx.tdiBuf) := by
  obtain ⟨more, hd, hp, -⟩ := shiftChecked_spec n exit s
  rw [hd.trace, drivenPins_append, hp]

/-- What a checked shift leaves in `tdo_captured`, by the answers it sampled. -/
theorem shiftChecked_ctx (n : Nat) (exit : Bool) (s : State) :
    (shiftChecked n exit s).ctx = { s.ctx with
      tdoCaptured := captureUpTo s.cfg.cmpBytes
        ((sampledTdo (shiftChecked n exit s).pins.trace).drop (sampledTdo s.pins.trace).length)
        (clearBytes (min (ceil8 n) s.cfg.cmpBytes) s.ctx.tdoCaptured) n } := by
  obtain ⟨more, hd, -, -, -, hctx, -⟩ := shiftChecked_spec n exit s
  rw [hctx, hd.sampledTdo_drop]

/-- Noninterference: two scans from the same context whose targets answered alike below the compare bound leave the
same context (R129). -/
theorem shiftChecked_ctx_congr {s u : State} (n : Nat) (exit : Bool) (hcfg : s.cfg = u.cfg) (hctx : s.ctx = u.ctx)
    (h : ((sampledTdo (shiftChecked n exit s).pins.trace).drop (sampledTdo s.pins.trace).length).take
        (8 * s.cfg.cmpBytes) =
      ((sampledTdo (shiftChecked n exit u).pins.trace).drop (sampledTdo u.pins.trace).length).take
        (8 * s.cfg.cmpBytes)) :
    (shiftChecked n exit s).ctx = (shiftChecked n exit u).ctx := by
  rw [shiftChecked_ctx n exit s, shiftChecked_ctx n exit u, captureUpTo_congr h, hcfg, hctx]

/-- The compare reads the configuration and the context only. -/
theorem matched_congr {s u : State} (n : Nat) (hcfg : s.cfg = u.cfg) (hctx : s.ctx = u.ctx) :
    matched n s = matched n u := by
  rw [matched, matched, hcfg, hctx]

/-- With equal capacities every scan within the maximum lies below the compare bound. -/
theorem ceil8_le_cmpBytes {p : Params} {n : Nat} (hp : p.ok) (heq : p.maxCompareBits = p.maxTdiBits)
    (hn : n ≤ p.maxTdiBits) : ceil8 n ≤ p.cmpBytes := by
  obtain ⟨-, htdi, -⟩ := hp
  unfold ceil8 Params.cmpBytes
  omega

/-- Settles O22: the shift drives and samples every bit, captures from the answers below the bound alone, and the
compare reads nothing but what was captured. -/
theorem bitsAboveTheCompareBoundAreShiftedButNeverKept :
    Obligations.BitsAboveTheCompareBoundAreShiftedButNeverKept := by
  unfold Obligations.BitsAboveTheCompareBoundAreShiftedButNeverKept
  refine ⟨fun s u n exit hcfg hctx _ _ _ => ?_, fun _ _ => ceil8_le_cmpBytes⟩
  refine ⟨shiftChecked_drivenPins n exit s, shiftChecked_samples n exit s, fun halike => ?_⟩
  have hafter := shiftChecked_ctx_congr n exit hcfg hctx halike
  have hplat : (shiftChecked n exit s).cfg = (shiftChecked n exit u).cfg := by
    rw [shiftChecked_cfg, shiftChecked_cfg, hcfg]
  exact ⟨hafter, matched_congr n hplat hafter⟩

end Sys2Proof.Machine

/-!
O5 (42_interpreter.md R141): the step of a run is `exec` of the whole instruction at the cursor, past its bytes.
-/

namespace Sys2Proof.Machine

/-- Settles O5: inside a run the step takes the decoder's whole-instruction branch, `step_of_decode_instr`. -/
theorem stepRunsTheDecodedInstruction : Obligations.StepRunsTheDecodedInstruction := by
  unfold Obligations.StepRunsTheDecodedInstruction
  exact fun _ _ _ hr hd => step_of_decode_instr hr hd

end Sys2Proof.Machine

/-!
O47 (42_interpreter.md R148, 45_xsvf_quick.md R205): along every way an instruction can go, the pending run-test count
is kept, set by XRUNTEST, or used up by an instruction that runs `PostScan`.
-/

namespace Sys2Proof.Machine

/-- Reading operands keeps the pending count. -/
theorem OperandsOnly.pendingRuntest {s r : State} (h : OperandsOnly s r) :
    r.ctx.pendingRuntest = s.ctx.pendingRuntest := by rw [h.ctx]

/-- An instruction's end or model fault leaves the context of the state it is raised in, so the count is decided by the
operand reads and the scan before it. -/
theorem exec_pendingRuntest {i : Instr} {s t : State} (h : exec i s = .next t) :
    t.ctx.pendingRuntest = s.ctx.pendingRuntest ∨ (∃ count, i = .xruntest count) ∨
      (runsPostScan i = true ∧ t.ctx.pendingRuntest = 0) := by
  cases exec_cases h with
  | exhausted r hread _ _ _ ht => rw [ht, finish_ctx]; exact .inl hread.pendingRuntest
  | quick r hread _ _ _ ht => rw [ht, raiseFault_ctx]; exact .inl hread.pendingRuntest
  | overflow _ ht | success _ ht => rw [ht, finish_ctx]; exact .inl rfl
  | bad _ ht => rw [ht, raiseFault_ctx]; exact .inl rfl
  | fail q _ hscan _ ht => rw [ht, finish_ctx]; exact hscan.pend
  | ran hran => exact hran.pend

/-- Settles O47: with XRUNTEST excluded the count is kept or used up, and used up only where `PostScan` runs. -/
theorem pendingCountSurvivesAllButPostScan : Obligations.PendingCountSurvivesAllButPostScan := by
  unfold Obligations.PendingCountSurvivesAllButPostScan
  intro s t i h hne
  rcases exec_pendingRuntest h with hkept | ⟨count, hi⟩ | ⟨hpost, hzero⟩
  · exact ⟨fun _ => hkept, .inl hkept⟩
  · exact absurd hi (hne count)
  · exact ⟨fun hnot => absurd (hpost.symm.trans hnot) Bool.noConfusion, .inr hzero⟩

end Sys2Proof.Machine

/-!
O1 to O4 (30_encoding.md): the encoder and the decoder are inverse to each other on whole instructions, and the
integer operands are big-endian.
-/

namespace Sys2Proof

/-- Settles O2: the decoder finds the opcode by its byte and each operand format reads back what was written. -/
theorem encodedInstructionDecodesBackToItself : Obligations.EncodedInstructionDecodesBackToItself := by
  unfold Obligations.EncodedInstructionDecodesBackToItself
  exact fun p sdr i rest hd hw => decode_encode_append p sdr i rest hd hw

/-- The whole instruction `i` stands in the operand bytes `bs` after an opcode byte and takes `n` bytes, that byte
included. -/
structure HoldsOperands (p : Params) (sdr : Word32) (bs : List Byte) (i : Instr) (n : Nat) : Prop where
  wellFormed : i.wellFormed p sdr = true
  bytes : operandBytes i = bs.take (n - 1)
  length : n = instrLength p sdr i
  fits : n ≤ bs.length + 1

theorem takeByte_holds {p : Params} {sdr : Word32} {mk : Byte → Instr} {bs : List Byte} {i : Instr} {n : Nat}
    (h : takeByte mk bs = .instr i n) (hw : ∀ b, (mk b).wellFormed p sdr = true)
    (hb : ∀ b, operandBytes (mk b) = [b]) (hl : ∀ b, instrLength p sdr (mk b) = 2) :
    HoldsOperands p sdr bs i n := by
  obtain ⟨b, r, rfl, rfl, rfl⟩ := takeByte_inv h
  exact ⟨hw b, by simp [hb], (hl b).symm, by simp⟩

theorem takeWord_holds {p : Params} {sdr : Word32} {mk : Word32 → Instr} {bs : List Byte} {i : Instr} {n : Nat}
    (h : takeWord mk bs = .instr i n) (hw : ∀ w, (mk w).wellFormed p sdr = true)
    (hb : ∀ w, operandBytes (mk w) = wordBytes w) (hl : ∀ w, instrLength p sdr (mk w) = 5) :
    HoldsOperands p sdr bs i n := by
  obtain ⟨a, b, c, d, r, rfl, rfl, rfl⟩ := takeWord_inv h
  exact ⟨hw _, by simp [hb, bytes_of_word], (hl _).symm, by simp⟩

theorem takeVector_holds {p : Params} {sdr : Word32} {mk : List Byte → Instr} {pre bs : List Byte} {nb : Nat}
    {i : Instr} {n : Nat} (h : takeVector mk nb (1 + pre.length) bs = .instr i n)
    (hw : ∀ v, v.length = nb → (mk v).wellFormed p sdr = true)
    (hb : ∀ v, operandBytes (mk v) = pre ++ v) (hl : ∀ v, instrLength p sdr (mk v) = 1 + pre.length + nb) :
    HoldsOperands p sdr (pre ++ bs) i n := by
  obtain ⟨rfl, rfl, hle⟩ := takeVector_inv h
  refine ⟨hw _ (List.length_take_of_le hle), ?_, (hl _).symm, by simp; omega⟩
  rw [hb, show 1 + pre.length + nb - 1 = pre.length + nb by omega, List.take_length_add_append]

theorem takeTwoVectors_holds {p : Params} {sdr : Word32} {mk : List Byte → List Byte → Instr} {bs : List Byte}
    {nb : Nat} {i : Instr} {n : Nat} (h : takeTwoVectors mk nb bs = .instr i n)
    (hw : ∀ v e, v.length = nb → e.length = nb → (mk v e).wellFormed p sdr = true)
    (hb : ∀ v e, operandBytes (mk v e) = v ++ e) (hl : ∀ v e, instrLength p sdr (mk v e) = 1 + 2 * nb) :
    HoldsOperands p sdr bs i n := by
  obtain ⟨rfl, rfl, hle⟩ := takeTwo_inv h
  refine ⟨hw _ _ (by simp; omega) (by simp; omega), ?_, (hl _ _).symm, by omega⟩
  rw [hb, ← List.take_add, Nat.add_sub_cancel_left, two_mul]

/-- A whole instruction read from operand bytes is the one of its opcode that those bytes spell (R71). -/
theorem decodeOperands_holds {p : Params} {sdr : Word32} {o : Opcode} {bs : List Byte} {i : Instr} {n : Nat}
    (h : decodeOperands p sdr o bs = .instr i n) : i.opcode = o ∧ HoldsOperands p sdr bs i n := by
  cases o <;> simp only [decodeOperands] at h
  case xcomplete => cases h; exact ⟨rfl, rfl, rfl, rfl, by simp⟩
  case xrepeat | xstate | xendir | xenddr =>
    obtain ⟨b, r, -, rfl, -⟩ := takeByte_inv h
    exact ⟨rfl, takeByte_holds h (fun _ => rfl) (fun _ => rfl) fun _ => rfl⟩
  case xruntest | xsdrsize =>
    obtain ⟨a, b, c, d, r, -, rfl, -⟩ := takeWord_inv h
    exact ⟨rfl, takeWord_holds h (fun _ => rfl) (fun _ => rfl) fun _ => rfl⟩
  case xtdomask | xsdr | xsdrb | xsdrc | xsdre =>
    obtain ⟨rfl, -⟩ := takeVector_inv h
    exact ⟨rfl, takeVector_holds (pre := []) h (fun _ hv => by simp [Instr.wellFormed, hv]) (fun _ => rfl)
      fun _ => rfl⟩
  case xsdrtdo | xsdrtdob | xsdrtdoc | xsdrtdoe =>
    obtain ⟨rfl, -⟩ := takeTwo_inv h
    exact ⟨rfl, takeTwoVectors_holds h (fun _ _ hv he => by simp [Instr.wellFormed, hv, he]) (fun _ _ => rfl)
      fun _ _ => rfl⟩
  case xsir =>
    obtain _ | ⟨len, bs⟩ := bs
    · cases h
    · obtain ⟨rfl, -⟩ := takeVector_inv h
      exact ⟨rfl, takeVector_holds (pre := [len]) h (fun _ hv => by simp [Instr.wellFormed, hv]) (fun _ => rfl)
        fun _ => rfl⟩
  case xsir2 =>
    obtain _ | ⟨hi, _ | ⟨lo, bs⟩⟩ := bs
    · cases h
    · cases h
    · obtain ⟨rfl, -⟩ := takeVector_inv h
      obtain ⟨hhi, hlo⟩ := bytes_of_half hi lo
      exact ⟨rfl, takeVector_holds (pre := [hi, lo]) h (fun _ hv => by simp [Instr.wellFormed, hv])
        (fun _ => by simp [operandBytes, hhi, hlo]) fun _ => rfl⟩

/-- What the decoder answers as a whole instruction is well formed and is encoded by the bytes it was read from. -/
theorem decode_instr_inv {p : Params} {sdr : Word32} {bytes : List Byte} {i : Instr} {n : Nat}
    (h : decode p sdr bytes = .instr i n) :
    i.wellFormed p sdr = true ∧ encode p i = bytes.take n ∧ n = instrLength p sdr i ∧ n ≤ bytes.length := by
  obtain _ | ⟨op, bs⟩ := bytes
  · cases h
  rw [decode] at h
  split at h
  · cases h
  · rename_i o ho
    obtain ⟨rfl, hwf, hbytes, hlen, hfits⟩ := decodeOperands_holds h
    have hbyte := decodeOpcode_some _ _ _ ho
    have hpos : n = (n - 1) + 1 := by cases i <;> simp only [instrLength] at hlen <;> omega
    refine ⟨hwf, ?_, hlen, hfits⟩
    rw [encode, hbyte, hbytes, hpos, List.take_succ_cons, Nat.add_sub_cancel]

/-- Settles O3: one inversion per operand format, `decode_instr_inv`. -/
theorem decodedInstructionIsTheOneItsBytesEncode : Obligations.DecodedInstructionIsTheOneItsBytesEncode := by
  unfold Obligations.DecodedInstructionIsTheOneItsBytesEncode
  exact fun _ _ _ _ _ h => decode_instr_inv h

/-- Four bytes read most significant first (R54). -/
theorem toNat_word (a b c d : Byte) :
    (a ++ b ++ c ++ d : Word32).toNat =
      a.toNat * 2 ^ 24 + b.toNat * 2 ^ 16 + c.toNat * 2 ^ 8 + d.toNat := by
  rw [toNat_append8, toNat_append8, toNat_append8]
  omega

theorem takeVector_instr_or_cutShort (mk : List Byte → Instr) (nb used : Nat) (bs : List Byte) :
    ∃ v n, takeVector mk nb used bs = .instr (mk v) n ∨ takeVector mk nb used bs = .cutShort (mk v) n := by
  unfold takeVector
  split
  · exact ⟨_, _, .inl rfl⟩
  · exact ⟨_, _, .inr rfl⟩

/-- Settles O4: each integer operand is the bytes appended in stream order, so its value is big-endian. -/
theorem integerOperandsAreBigEndian : Obligations.IntegerOperandsAreBigEndian := by
  unfold Obligations.IntegerOperandsAreBigEndian
  intro p sdr b3 b2 b1 b0 rest hd
  refine ⟨⟨_, decode_byteOf_cons p sdr hd .xruntest _, toNat_word ..⟩,
    ⟨_, decode_byteOf_cons p sdr hd .xsdrsize _, toNat_word ..⟩, ?_⟩
  obtain ⟨v, n, h⟩ := takeVector_instr_or_cutShort (.xsir2 (b1 ++ b0)) (irDataBytes p (b1 ++ b0).toNat) 3 rest
  have hdec := decode_byteOf_cons p sdr hd .xsir2 (b1 :: b0 :: rest)
  exact ⟨b1 ++ b0, v, n, toNat_append8 b1 b0, h.imp hdec.trans hdec.trans⟩

/-- Settles O1: sample words evaluate to their instructions, and the 18 opcode bytes are checked against all 256. -/
theorem sampleWordsDecodeAsTheSpecEncodesThem : Obligations.SampleWordsDecodeAsTheSpecEncodesThem := by
  unfold Obligations.SampleWordsDecodeAsTheSpecEncodesThem
  decide

end Sys2Proof

/-!
O51 to O54 (10_state.md, 40_tap.md): the invariant and the tracking of the TAP hold at reset and every step keeps them,
the step that starts the next run included.
-/

namespace Sys2Proof.Machine

theorem Ran.of_ctx_eq {i : Instr} {s t : State} (hctl : t.ctl = s.ctl) (hctx : t.ctx = s.ctx) : Ran i s t := by
  apply Ran.of_eq hctl <;> simp [hctx]

theorem OperandsOnly.ran {i : Instr} {s r : State} (h : OperandsOnly s r)
    (hmask : r.ctx.tdoMask = s.ctx.tdoMask ∨ ∃ mask, i = .xtdomask mask) : Ran i s r where
  ctl := h.ctl
  sdr := by rw [h.ctx]; exact .inl rfl
  eir := by rw [h.ctx]; exact .inl rfl
  edr := by rw [h.ctx]; exact .inl rfl
  pend := by rw [h.ctx]; exact .inl rfl
  mask := hmask

/-- The context an instruction leaves is one it ran to: an end of the run or a model fault writes no register of it. -/
theorem exec_ran {i : Instr} {s t : State} (h : exec i s = .next t) : ∃ q, Ran i s q ∧ t.ctx = q.ctx := by
  cases exec_cases h with
  | exhausted r hread _ _ hmask ht => exact ⟨r, hread.ran hmask, by rw [ht, finish_ctx]⟩
  | quick r hread hmask _ _ ht => exact ⟨r, hread.ran (.inl hmask), by rw [ht, raiseFault_ctx]⟩
  | overflow _ ht | success _ ht => exact ⟨s, .of_ctx_eq rfl rfl, by rw [ht, finish_ctx]⟩
  | bad _ ht => exact ⟨s, .of_ctx_eq rfl rfl, by rw [ht, raiseFault_ctx]⟩
  | fail q _ hran _ ht => exact ⟨q, hran, by rw [ht, finish_ctx]⟩
  | ran hran => exact ⟨t, hran, rfl⟩

/-- An instruction writes at most one of the two registers that say how a run ended. -/
theorem exec_ctl {i : Instr} {s t : State} (h : exec i s = .next t) :
    t.ctl = s.ctl ∨ (∃ o, t.ctl = { s.ctl with outcome := some o }) ∨
      ∃ r, t.ctl = { s.ctl with faulted := some r } := by
  cases exec_cases h with
  | exhausted r hread _ _ _ ht => rw [ht, finish_ctl, hread.ctl]; exact .inr (.inl ⟨_, rfl⟩)
  | quick r hread _ _ _ ht => rw [ht, raiseFault_ctl, hread.ctl]; exact .inr (.inr ⟨_, rfl⟩)
  | overflow _ ht | success _ ht => rw [ht, finish_ctl]; exact .inr (.inl ⟨_, rfl⟩)
  | bad _ ht => rw [ht, raiseFault_ctl]; exact .inr (.inr ⟨_, rfl⟩)
  | fail q _ hran _ ht => rw [ht, finish_ctl, hran.ctl]; exact .inr (.inl ⟨_, rfl⟩)
  | ran hran => exact .inl hran.ctl

theorem runEnded_eq_false_iff (s : State) : runEnded s = false ↔ s.ctl.outcome = none ∧ s.ctl.faulted = none := by
  simp [runEnded]

/-- Taking bytes from the stream keeps the invariant. -/
theorem Inv.advance {s : State} (n : Nat) (h : Inv s) : Inv (advance n s) :=
  ⟨h.cfgOk, h.sdrSizeFits, h.tdiBufSize, h.tdoExpectedSize, h.tdoMaskSize, h.tdoCapturedSize, h.endIr, h.endDr,
    h.shiftHold, h.oneEnd, h.endedStarted, h.streamWf, h.callsWf⟩

/-- Ending a run that was going on keeps the invariant. -/
theorem Inv.finish {s : State} (o : RunOutcome) (hr : inRun s = true) (h : Inv s) : Inv (finish o s) := by
  obtain ⟨hstarted, hend⟩ := (inRun_iff s).1 hr
  obtain ⟨-, hfaulted⟩ := (runEnded_eq_false_iff s).1 hend
  exact ⟨h.cfgOk, h.sdrSizeFits, h.tdiBufSize, h.tdoExpectedSize, h.tdoMaskSize, h.tdoCapturedSize, h.endIr, h.endDr,
    h.shiftHold, .inr hfaulted, fun _ => hstarted, h.streamWf, h.callsWf⟩

/-- An instruction of a run that is going on keeps the invariant. -/
theorem Inv.exec {i : Instr} {s t : State} (hr : inRun s = true) (hi : Inv s) (h : exec i s = .next t) : Inv t := by
  obtain ⟨hstarted, hend⟩ := (inRun_iff s).1 hr
  obtain ⟨houtcome, hfaulted⟩ := (runEnded_eq_false_iff s).1 hend
  have hq := exec_quiet h
  obtain ⟨more, hdrives⟩ := hq.drives
  obtain ⟨q, hran, hctx⟩ := exec_ran h
  exact {
    cfgOk := by rw [hq.cfg]; exact hi.cfgOk
    sdrSizeFits := by
      rw [hctx, hq.cfg]
      obtain hsame | ⟨size, -, hsize, hfits⟩ := hran.sdr
      · rw [hsame]; exact hi.sdrSizeFits
      · rw [hsize]; exact hfits
    tdiBufSize := by rw [hq.tdiBuf, hq.cfg]; exact hi.tdiBufSize
    tdoExpectedSize := by rw [hq.tdoExpected, hq.cfg]; exact hi.tdoExpectedSize
    tdoMaskSize := by rw [hq.tdoMask, hq.cfg]; exact hi.tdoMaskSize
    tdoCapturedSize := by rw [hq.tdoCaptured, hq.cfg]; exact hi.tdoCapturedSize
    endIr := by
      rw [hctx]
      obtain hsame | ⟨-, hnew⟩ := hran.eir
      · rw [hsame]; exact hi.endIr
      · exact hnew
    endDr := by
      rw [hctx]
      obtain hsame | ⟨-, hnew⟩ := hran.edr
      · rw [hsame]; exact hi.endDr
      · exact hnew
    shiftHold := hdrives.shift_hold hi.shiftHold
    oneEnd := by
      obtain hc | ⟨o, hc⟩ | ⟨r, hc⟩ := exec_ctl h <;> rw [hc]
      · exact hi.oneEnd
      · exact .inr hfaulted
      · exact .inl houtcome
    endedStarted := fun _ => hq.started.trans hstarted
    streamWf := by rw [hq.source]; exact hi.streamWf
    callsWf := by rw [hq.calls]; exact hi.callsWf }

theorem tapReset_tapState (p : Pins) : (tapReset p).tapState = .testLogicReset := rfl

/-- What `Reset()` leaves (R104). -/
theorem tapReset_spec (p : Pins) :
    ∃ tdo : List Bool, tdo.length = 32 ∧
      (tapReset p).trace = p.trace ++ tdo.map (fun b => PinEvent.full false true b) ∧
      (tapReset p).tmsHold = true ∧ (tapReset p).tdoIn = p.tdoIn.drop 32 :=
  driveReset_spec 32 p

theorem drivenPins_map_full (tdi tms : Bool) (tdo : List Bool) :
    drivenPins (tdo.map fun b => PinEvent.full tdi tms b) = List.replicate tdo.length (tdi, tms) := by
  induction tdo with
  | nil => rfl
  | cons b tdo ih => exact congrArg ((tdi, tms) :: ·) ih

/-- A trace of reset pulses alone tracks TestLogicReset, where five of them lead from anywhere (R23, R104). -/
theorem tapTracked_of_resetPulses {s : State} {tdo : List Bool} (hl : tdo.length = 32)
    (htrace : s.pins.trace = tdo.map fun b => PinEvent.full false true b)
    (htap : s.pins.tapState = .testLogicReset) (hhold : s.pins.tmsHold = true) : TapTracked s := by
  have hpins : drivenPins s.pins.trace = List.replicate 32 (false, true) := by
    rw [htrace, drivenPins_map_full, hl]
  refine ⟨fun start => ?_, ?_⟩
  · rw [tapAfter, hpins, htap]
    cases start <;> decide
  · rw [hpins, hhold]; rfl

/-- The prologue of `Run()` leaves the TAP tracked, whatever it found (R104, R140). -/
theorem startRun_tapTracked (c : RunCall) (s : State) : TapTracked (startRun c s) := by
  obtain ⟨tdo, hl, htrace, hhold, -⟩ := tapReset_spec { s.pins with trace := [], tdoIn := c.tdo }
  exact tapTracked_of_resetPulses hl htrace rfl hhold

/-- The prologue of `Run()` establishes the invariant on canonical streams (R41, R140). -/
theorem startRun_inv {c : RunCall} {s : State} (hcfg : s.cfg.ok) (hc : Memory.wf c.stream)
    (hcalls : ∀ r ∈ s.ctl.calls, Memory.wf r.stream) : Inv (startRun c s) where
  cfgOk := hcfg
  sdrSizeFits := hcfg.1
  tdiBufSize := List.length_replicate
  tdoExpectedSize := List.length_replicate
  tdoMaskSize := List.length_replicate
  tdoCapturedSize := List.length_replicate
  endIr := .inl rfl
  endDr := .inl rfl
  shiftHold := fun h => absurd h (by rw [startRun, tapReset_tapState]; decide)
  oneEnd := .inl rfl
  endedStarted := fun h => nomatch h
  streamWf := hc
  callsWf := hcalls

/-- Outside a run the step is the idle moment or the start of the next run (R143, R145). -/
theorem step_of_not_inRun {s : State} (h : inRun s = false) : step s = .next (betweenRuns s) := by
  simp [step, stepWith, h]

theorem betweenRuns_of_calls_nil {s : State} (h : s.ctl.calls = []) : betweenRuns s = s := by
  rw [betweenRuns, h]

theorem betweenRuns_of_calls_cons {s : State} {c : RunCall} {rest : List RunCall} (h : s.ctl.calls = c :: rest) :
    betweenRuns s = startRun c { s with ctl := { s.ctl with calls := rest } } := by
  rw [betweenRuns, h]

theorem Inv.betweenRuns {s : State} (h : Inv s) : Inv (betweenRuns s) := by
  cases hcalls : s.ctl.calls with
  | nil => rw [betweenRuns_of_calls_nil hcalls]; exact h
  | cons c rest =>
    have hwf := h.callsWf
    rw [hcalls] at hwf
    rw [betweenRuns_of_calls_cons hcalls]
    exact startRun_inv h.cfgOk (hwf c List.mem_cons_self) fun r hr => hwf r (List.mem_cons_of_mem c hr)

theorem TapTracked.betweenRuns {s : State} (h : TapTracked s) : TapTracked (betweenRuns s) := by
  cases hcalls : s.ctl.calls with
  | nil => rw [betweenRuns_of_calls_nil hcalls]; exact h
  | cons c rest => rw [betweenRuns_of_calls_cons hcalls]; exact startRun_tapTracked c _

/-- A step is one of a run or the moment between two. -/
theorem inRun_or_between {s t : State} (h : step s = .next t) : inRun s = true ∨ t = betweenRuns s := by
  cases hr : inRun s with
  | true => exact .inl rfl
  | false => rw [step_of_not_inRun hr] at h; cases h; exact .inr rfl

/-- Settles O51: inside a run by what the instruction, or the end of the stream, may do; between runs by what the
prologue sets up. -/
theorem everyStepKeepsTheInvariant : Obligations.EveryStepKeepsTheInvariant := by
  unfold Obligations.EveryStepKeepsTheInvariant
  intro s t hi h
  obtain hr | rfl := inRun_or_between h
  · obtain ⟨i, n, -, hexec⟩ | ⟨n, -, -, rfl⟩ | ⟨b, -, rfl⟩ := step_cases hr h
    · exact Inv.exec (s := advance n s) hr (hi.advance n) hexec
    · exact (hi.advance n).finish .exhausted hr
    · exact (hi.advance 1).finish .fail hr
  · exact hi.betweenRuns

/-- Settles O53: a step inside a run only drives, and driving is tracked; the prologue tracks from nothing. -/
theorem everyStepKeepsTheTapTracked : Obligations.EveryStepKeepsTheTapTracked := by
  unfold Obligations.EveryStepKeepsTheTapTracked
  intro s t hs h
  obtain hr | rfl := inRun_or_between h
  · obtain ⟨n, hq⟩ := step_quiet hr h
    obtain ⟨more, hd⟩ := hq.drives
    exact Drives.tapTracked hd hs
  · exact hs.betweenRuns

/-- A machine on which the prologue of `Run()` leaves the reset state. -/
def beforeReset : State := { State.reset with pins := ⟨.runTest, false, [], [], 0⟩ }

theorem startRun_beforeReset : startRun ⟨[], .eos, []⟩ beforeReset = State.reset := startRun_blank _ rfl rfl rfl

/-- Settles O52: reset is the prologue of `Run()` on an empty stream. -/
theorem resetMeetsTheInvariant : Obligations.ResetMeetsTheInvariant := by
  unfold Obligations.ResetMeetsTheInvariant
  have hcfg : beforeReset.cfg.ok := by decide
  rw [← startRun_beforeReset]
  exact startRun_inv hcfg List.Pairwise.nil fun r hr => nomatch hr

/-- Settles O54: so its 32 pulses track TestLogicReset. -/
theorem resetHasTheTapTracked : Obligations.ResetHasTheTapTracked := by
  unfold Obligations.ResetHasTheTapTracked
  rw [← startRun_beforeReset]
  exact startRun_tapTracked _ _

end Sys2Proof.Machine

/-!
O7 to O10, O55, O56 (20_memory.md, 42_interpreter.md R141, R143, 46_xsvf_control.md): how a step of a run takes its
bytes from the stream, and the events on which it ends the run.
-/

namespace Sys2Proof.Machine

/-- Settles O7: the fetch takes the bytes of the instruction, and running it leaves the byte source alone. -/
theorem stepMovesTheCursorByTheInstructionLength : Obligations.StepMovesTheCursorByTheInstructionLength := by
  unfold Obligations.StepMovesTheCursorByTheInstructionLength
  intro s t i n hr hd h
  obtain ⟨-, -, hn, -⟩ := decode_instr_inv hd
  rw [step_of_decode_instr hr hd] at h
  rw [(exec_quiet h).source, advance_source, hn]

theorem longestInstr_eq_succ (p : Params) (sdr : Word32) : longestInstr p sdr = (longestInstr p sdr - 1) + 1 := by
  unfold longestInstr; omega

/-- The fetch window begins with the byte at the cursor, where the source has one. -/
theorem fetchWindow_of_sourceByte {s : State} {b : Byte} (h : sourceByte s.source s.source.cursor = some b) :
    fetchWindow s = b :: sourceBytes s.source (s.source.cursor + 1) (longestInstr s.cfg s.ctx.sdrSize - 1) := by
  rw [fetchWindow, longestInstr_eq_succ, sourceBytes, h, Nat.add_sub_cancel]

theorem sourceByte_of_fetchWindow {s : State} {b : Byte} {bs : List Byte} (h : fetchWindow s = b :: bs) :
    sourceByte s.source s.source.cursor = some b := by
  cases hb : sourceByte s.source s.source.cursor with
  | some c => rw [fetchWindow_of_sourceByte hb] at h; cases h; rfl
  | none => rw [fetchWindow, longestInstr_eq_succ, sourceBytes, hb] at h; cases h

/-- Where the decoder reads no opcode the run ends with `FAIL` after one byte (R226). -/
theorem step_of_decode_unsupported {s : State} {b : Byte} (hr : inRun s = true)
    (hd : decode s.cfg s.ctx.sdrSize (fetchWindow s) = .unsupported b) :
    step s = .next (finish .fail (advance 1 s)) := by
  simp only [step, stepWith, if_pos hr, hd]

/-- Settles O8: the byte at the cursor heads the fetch window, where the decoder finds it in no entry of the map. -/
theorem unsupportedOpcodeFailsTheRunAfterItsOneByte : Obligations.UnsupportedOpcodeFailsTheRunAfterItsOneByte := by
  unfold Obligations.UnsupportedOpcodeFailsTheRunAfterItsOneByte
  intro s b hr hb hop
  refine step_of_decode_unsupported (b := b) hr ?_
  rw [fetchWindow_of_sourceByte hb, decode, hop]

/-- Where a byte is missing the step keeps the operand bytes there are and asks the source for its next answer. -/
theorem step_of_decode_missing {s : State} {n : Nat} (hr : inRun s = true)
    (hd : decode s.cfg s.ctx.sdrSize (fetchWindow s) = .exhausted n ∨
      ∃ i, decode s.cfg s.ctx.sdrSize (fetchWindow s) = .cutShort i n) :
    ∃ r, OperandsOnly (advance n s) r ∧ step s = sourceEnd r := by
  obtain hd | ⟨i, hd⟩ := hd
  · exact ⟨advance n s, ⟨rfl, rfl, rfl, rfl, rfl⟩, by simp only [step, stepWith, if_pos hr, hd]⟩
  · obtain ⟨r, hread, hend⟩ := exec_of_short (s := advance n s) (decode_cutShort hd).1
    exact ⟨r, hread, by simp only [step, stepWith, if_pos hr, hd, hend]⟩

theorem sourceEnd_of_eos {s : State} (h : s.source.tail = .eos) : sourceEnd s = .next (finish .exhausted s) := by
  rw [sourceEnd, h]

theorem sourceEnd_of_blocks {s : State} (h : s.source.tail = .blocks) : sourceEnd s = .fault .sourceBlocked := by
  rw [sourceEnd, h]

theorem OperandsOnly.tail {s r : State} {n : Nat} (h : OperandsOnly (advance n s) r) :
    r.source.tail = s.source.tail := by rw [h.source, advance_source]

theorem decode_missing_length {p : Params} {sdr : Word32} {bytes : List Byte} {n : Nat}
    (h : decode p sdr bytes = .exhausted n ∨ ∃ i, decode p sdr bytes = .cutShort i n) : n = bytes.length := by
  obtain h | ⟨i, h⟩ := h
  · exact decode_exhausted h
  · exact (decode_cutShort h).2

/-- Settles O9: the source signals its end on the state whose operand buffers alone were written. -/
theorem sourceEndingInAnInstructionExhaustsTheRun : Obligations.SourceEndingInAnInstructionExhaustsTheRun := by
  unfold Obligations.SourceEndingInAnInstructionExhaustsTheRun
  intro s n hr heos hd
  obtain ⟨r, hread, hstep⟩ := step_of_decode_missing hr hd
  rw [sourceEnd_of_eos (hread.tail.trans heos)] at hstep
  refine ⟨decode_missing_length hd, _, hstep, ?_, hread.pins, hread.cfg, hread.source, hread.ctx⟩
  rw [finish_ctl, hread.ctl, advance_ctl]

/-- A whole instruction that ends the run does so on one of five events (R143). -/
theorem exec_end_event {i : Instr} {s t : State} (hend : runEnded s = false)
    (hwf : i.wellFormed s.cfg s.ctx.sdrSize = true) (h : exec i s = .next t) (ht : runEnded t = true) :
    (t.ctl.faulted = none ∧
      ((t.ctl.outcome = some .success ∧ i = .xcomplete) ∨
       (t.ctl.outcome = some .fail ∧ compares i = true ∧ matched (scanBits t) t = false) ∨
       (t.ctl.outcome = some .overflow ∧ tooLong s.cfg i = true))) ∨
    (t.ctl.outcome = none ∧
      ((t.ctl.faulted = some .badStateId ∧ badStateByte i = true) ∨
       (t.ctl.faulted = some .quickOutsideShift ∧ needsShiftDR i = true ∧ s.pins.tapState ≠ .shiftDR))) := by
  obtain ⟨houtcome, hfaulted⟩ := (runEnded_eq_false_iff s).1 hend
  cases exec_cases h with
  | exhausted r _ _ hshort _ _ => exact absurd hwf (not_wellFormed_of_short hshort)
  | success hi ht => subst ht; exact .inl ⟨hfaulted, .inl ⟨rfl, hi⟩⟩
  | fail q hc hran hm ht =>
    subst ht
    exact .inl ⟨by rw [finish_ctl, hran.ctl, hfaulted], .inr (.inl ⟨rfl, hc, hm⟩)⟩
  | overflow hlong ht => subst ht; exact .inl ⟨hfaulted, .inr (.inr ⟨rfl, hlong⟩)⟩
  | bad hbyte ht => subst ht; exact .inr ⟨houtcome, .inl ⟨rfl, hbyte⟩⟩
  | quick r hread _ hneeds hstate ht =>
    subst ht
    exact .inr ⟨by rw [raiseFault_ctl, hread.ctl, houtcome], .inr ⟨rfl, hneeds, hstate⟩⟩
  | ran hran => rw [runEnded, hran.ctl] at ht; exact absurd (ht.symm.trans hend) Bool.noConfusion

/-- What the step makes of the end of the source (R51). -/
theorem step_missing_next {s t : State} {n : Nat} (hr : inRun s = true)
    (hd : decode s.cfg s.ctx.sdrSize (fetchWindow s) = .exhausted n ∨
      ∃ i, decode s.cfg s.ctx.sdrSize (fetchWindow s) = .cutShort i n) (h : step s = .next t) :
    s.source.tail = .eos ∧ t.ctl.outcome = some .exhausted ∧ t.ctl.faulted = none := by
  obtain ⟨r, hread, hstep⟩ := step_of_decode_missing hr hd
  obtain ⟨heos, rfl⟩ := sourceEnd_next (hstep.symm.trans h)
  obtain ⟨-, hend⟩ := (inRun_iff s).1 hr
  refine ⟨hread.tail.symm.trans heos, rfl, ?_⟩
  rw [finish_ctl, hread.ctl]
  exact ((runEnded_eq_false_iff s).1 hend).2

/-- Settles O55: by what the decoder answers; a whole instruction is well formed and ends the run on its own event. -/
theorem runEndsOnlyOnTheSixEvents : Obligations.RunEndsOnlyOnTheSixEvents := by
  unfold Obligations.RunEndsOnlyOnTheSixEvents
  intro s t hr h ht d
  obtain ⟨-, hend⟩ := (inRun_iff s).1 hr
  cases hd : d with
  | instr i n =>
    rw [step_of_decode_instr hr hd] at h
    obtain ⟨hf, ⟨ho, rfl⟩ | ⟨ho, hc, hm⟩ | ⟨ho, hl⟩⟩ | ⟨ho, ⟨hf, hb⟩ | ⟨hf, hq, hs⟩⟩ :=
      exec_end_event (s := advance n s) hend (decode_instr_inv hd).1 h ht
    · exact .inl ⟨hf, .inl ⟨ho, n, rfl⟩⟩
    · exact .inl ⟨hf, .inr (.inl ⟨ho, .inl ⟨i, n, rfl, hc, hm⟩⟩)⟩
    · exact .inl ⟨hf, .inr (.inr (.inl ⟨ho, i, n, rfl, hl⟩))⟩
    · exact .inr ⟨ho, .inl ⟨hf, i, n, rfl, hb⟩⟩
    · exact .inr ⟨ho, .inr ⟨hf, i, n, rfl, hq, hs⟩⟩
  | unsupported b =>
    rw [step_of_decode_unsupported hr hd] at h
    cases h
    exact .inl ⟨((runEnded_eq_false_iff s).1 hend).2, .inr (.inl ⟨rfl, .inr ⟨b, rfl⟩⟩)⟩
  | exhausted n =>
    obtain ⟨heos, ho, hf⟩ := step_missing_next hr (.inl hd) h
    exact .inl ⟨hf, .inr (.inr (.inr ⟨ho, heos, .inl ⟨n, rfl⟩⟩))⟩
  | cutShort i n =>
    obtain ⟨heos, ho, hf⟩ := step_missing_next hr (.inr ⟨i, hd⟩) h
    exact .inl ⟨hf, .inr (.inr (.inr ⟨ho, heos, .inr ⟨i, n, rfl⟩⟩))⟩

theorem runEnded_of_outcome {s : State} {o : RunOutcome} (h : s.ctl.outcome = some o) : runEnded s = true := by
  simp [runEnded, h]

/-- `EXHAUSTED` comes only from a source that signals its end (R51). -/
theorem eos_of_step_exhausted {s t : State} (hr : inRun s = true) (h : step s = .next t)
    (ho : t.ctl.outcome = some .exhausted) : s.source.tail = .eos := by
  obtain ⟨-, ⟨h1, -⟩ | ⟨h1, -⟩ | ⟨h1, -⟩ | ⟨-, heos, -⟩⟩ | ⟨h1, -⟩ :=
    runEndsOnlyOnTheSixEvents s t hr h (runEnded_of_outcome ho)
  case inl.inr.inr.inr => exact heos
  all_goals cases ho.symm.trans h1

/-- Success comes only from a decoded XCOMPLETE (R225). -/
theorem decode_of_step_success {s t : State} (hr : inRun s = true) (h : step s = .next t)
    (ho : t.ctl.outcome = some .success) : ∃ n, decode s.cfg s.ctx.sdrSize (fetchWindow s) = .instr .xcomplete n := by
  obtain ⟨-, ⟨-, hd⟩ | ⟨h1, -⟩ | ⟨h1, -⟩ | ⟨h1, -⟩⟩ | ⟨h1, -⟩ :=
    runEndsOnlyOnTheSixEvents s t hr h (runEnded_of_outcome ho)
  case inl.inl => exact hd
  all_goals cases ho.symm.trans h1

/-- Settles O56: XCOMPLETE is encoded by its one byte, so that byte stands at the cursor and nothing else is taken. -/
theorem successComesOnlyFromXcomplete : Obligations.SuccessComesOnlyFromXcomplete := by
  unfold Obligations.SuccessComesOnlyFromXcomplete
  refine ⟨fun s t hr h hsucc => ?_, fun s hr heos hd => ?_⟩
  · obtain ⟨n, hd⟩ := decode_of_step_success hr h hsucc.1
    obtain ⟨-, henc, rfl, -⟩ := decode_instr_inv hd
    have hwin : fetchWindow s = s.cfg.opcodes.xcomplete :: (fetchWindow s).drop 1 :=
      calc fetchWindow s = (fetchWindow s).take 1 ++ (fetchWindow s).drop 1 := (List.take_append_drop 1 _).symm
        _ = encode s.cfg .xcomplete ++ (fetchWindow s).drop 1 := by rw [henc]; rfl
    rw [step_of_decode_instr hr hd] at h
    cases h
    exact ⟨sourceByte_of_fetchWindow hwin, rfl⟩
  · obtain ⟨n, hd⟩ : ∃ n, decode s.cfg s.ctx.sdrSize (fetchWindow s) = .exhausted n ∨
        ∃ i, decode s.cfg s.ctx.sdrSize (fetchWindow s) = .cutShort i n := by
      obtain ⟨n, hd⟩ | ⟨i, n, hd⟩ := hd
      · exact ⟨n, .inl hd⟩
      · exact ⟨n, .inr ⟨i, hd⟩⟩
    obtain ⟨-, t, hstep, hctl, -⟩ := sourceEndingInAnInstructionExhaustsTheRun s n hr heos hd
    have ho : t.ctl.outcome = some .exhausted := by rw [hctl]
    exact ⟨t, hstep, ho, fun hsucc => nomatch ho.symm.trans hsucc.1⟩

/-- Bytes at the cursor that are a whole instruction, or no opcode, leave a next state (R52, R75). -/
theorem step_next_of_no_byte_missing {s : State} (hr : inRun s = true)
    (hd : (∃ i n, decode s.cfg s.ctx.sdrSize (fetchWindow s) = .instr i n) ∨
      ∃ b, decode s.cfg s.ctx.sdrSize (fetchWindow s) = .unsupported b) : ∃ t, step s = .next t := by
  obtain ⟨i, n, hd⟩ | ⟨b, hd⟩ := hd
  · rw [step_of_decode_instr hr hd]
    exact exec_of_whole (s := advance n s) fun hshort => not_wellFormed_of_short hshort (decode_instr_inv hd).1
  · exact ⟨_, step_of_decode_unsupported hr hd⟩

/-- So does a source that does not block (R51, R256). -/
theorem step_next_of_not_blocks {s : State} (hr : inRun s = true) (htail : s.source.tail ≠ .blocks) :
    ∃ t, step s = .next t := by
  cases htl : s.source.tail with
  | blocks => exact absurd htl htail
  | endless k => exact step_next_of_no_byte_missing hr (decode_endless htl)
  | eos =>
    have hmissing : ∀ {n : Nat}, (decode s.cfg s.ctx.sdrSize (fetchWindow s) = .exhausted n ∨
        ∃ i, decode s.cfg s.ctx.sdrSize (fetchWindow s) = .cutShort i n) → ∃ t, step s = .next t := by
      intro n hd
      obtain ⟨-, t, hstep, -⟩ := sourceEndingInAnInstructionExhaustsTheRun s n hr htl hd
      exact ⟨t, hstep⟩
    cases hd : decode s.cfg s.ctx.sdrSize (fetchWindow s) with
    | instr i n => exact step_next_of_no_byte_missing hr (.inl ⟨i, n, hd⟩)
    | unsupported b => exact step_next_of_no_byte_missing hr (.inr ⟨b, hd⟩)
    | exhausted n => exact hmissing (.inl hd)
    | cutShort i n => exact hmissing (.inr ⟨i, hd⟩)

/-- Settles O10: a missing byte is asked of the source, and only a source that blocks answers no next state. -/
theorem sourceThatBlocksLeavesNoStep : Obligations.SourceThatBlocksLeavesNoStep := by
  unfold Obligations.SourceThatBlocksLeavesNoStep
  refine ⟨fun s n hr hblocks hd => ?_, fun s htail => ?_, fun s hr hd => step_next_of_no_byte_missing hr hd,
    fun s k hr hendless => ?_⟩
  · obtain ⟨r, hread, hstep⟩ := step_of_decode_missing hr hd
    rw [hstep, sourceEnd_of_blocks (hread.tail.trans hblocks)]
  · cases hr : inRun s with
    | true => exact step_next_of_not_blocks hr (htail hr)
    | false => exact ⟨_, step_of_not_inRun hr⟩
  · obtain ⟨t, h⟩ := step_next_of_not_blocks hr (by rw [hendless]; exact SourceTail.noConfusion)
    refine ⟨t, h, fun ho => ?_⟩
    cases hendless.symm.trans (eos_of_step_exhausted hr h ho)

end Sys2Proof.Machine

/-!
O45, O46, O48, O49 (20_memory.md R53, 10_state.md R29, R30, R39, 60_exceptions.md R247): what no step of a run writes,
which instruction writes each context register, and when the pins have been driven.
-/

namespace Sys2Proof.Machine

/-- Settles O45: past the bytes it takes, a step is quiet. -/
theorem noStepOfARunWritesTheStreamOrTheConfiguration :
    Obligations.NoStepOfARunWritesTheStreamOrTheConfiguration := by
  unfold Obligations.NoStepOfARunWritesTheStreamOrTheConfiguration
  intro s t hr h
  obtain ⟨n, hq⟩ := step_quiet hr h
  obtain ⟨hstarted, -⟩ := (inRun_iff s).1 hr
  have hsrc : t.source = { s.source with cursor := s.source.cursor + n } := hq.source
  rw [hsrc]
  exact ⟨rfl, rfl, Nat.le_add_right .., hq.cfg, hq.calls, hq.started.trans hstarted, fun _ => rfl, fun _ => rfl⟩

/-- Settles O46: each register is as it was or was written by its own opcode, `exec_ran`. -/
theorem eachContextRegisterHasOneWriter : Obligations.EachContextRegisterHasOneWriter := by
  unfold Obligations.EachContextRegisterHasOneWriter
  intro s t i h
  obtain ⟨q, hran, hctx⟩ := exec_ran h
  rw [hctx]
  refine ⟨fun hne => ?_, fun hne => ?_, fun hne => ?_, fun hne => hran.mask.resolve_left hne⟩
  · obtain ⟨size, hi, -⟩ := hran.sdr.resolve_left hne
    exact ⟨size, hi⟩
  · exact (hran.eir.resolve_left hne).1
  · exact (hran.edr.resolve_left hne).1

/-- Settles O48: every instruction drives. -/
theorem traceGrowsAndAnswersAreTakenInOrder : Obligations.TraceGrowsAndAnswersAreTakenInOrder := by
  unfold Obligations.TraceGrowsAndAnswersAreTakenInOrder
  intro s t i h
  obtain ⟨more, hd⟩ := (exec_quiet h).drives
  exact ⟨more, hd.trace, hd.tdoIn, hd.inOrder⟩

/-- Settles O49: every end but `FAIL` comes before the pins are touched. -/
theorem runEndingBeforeTheShiftDrivesNoPin : Obligations.RunEndingBeforeTheShiftDrivesNoPin := by
  unfold Obligations.RunEndingBeforeTheShiftDrivesNoPin
  intro s t i hs h ht hne
  cases exec_cases h with
  | exhausted r hread _ _ _ ht => rw [ht, finish_pins, hread.pins]
  | quick r hread _ _ _ ht => rw [ht, raiseFault_pins, hread.pins]
  | overflow _ ht | success _ ht => rw [ht, finish_pins]
  | bad _ ht => rw [ht, raiseFault_pins]
  | fail q _ _ _ ht => exact absurd (by rw [ht, finish_ctl]) hne
  | ran hran => rw [runEnded, hran.ctl] at ht; exact absurd (ht.symm.trans hs) Bool.noConfusion

end Sys2Proof.Machine

/-!
O57 to O60 (10_state.md R41, 42_interpreter.md R140, R145): the machine outside a run, and what the next run starts
from.
-/

namespace Sys2Proof.Machine

/-- Settles O57: outside a run with no call pending the machine idles. -/
theorem endedRunStaysAsItIs : Obligations.EndedRunStaysAsItIs := by
  unfold Obligations.EndedRunStaysAsItIs
  intro s hidle hcalls
  rw [step_of_not_inRun ((inRun_false_iff s).2 hidle), betweenRuns_of_calls_nil hcalls]

/-- A pending call outside a run starts one (R145, R257). -/
theorem step_starts_run {s : State} {c : RunCall} {rest : List RunCall}
    (hidle : runEnded s = true ∨ s.ctl.started = false) (hcalls : s.ctl.calls = c :: rest) :
    step s = .next (startRun c { s with ctl := { s.ctl with calls := rest } }) := by
  rw [step_of_not_inRun ((inRun_false_iff s).2 hidle), betweenRuns_of_calls_cons hcalls]

/-- Settles O58: the step is the prologue, which writes every register and drives the 32 reset pulses. -/
theorem newRunStartsFromTheDefaults : Obligations.NewRunStartsFromTheDefaults := by
  unfold Obligations.NewRunStartsFromTheDefaults
  intro s c rest hidle hcalls
  obtain ⟨tdo, hl, htrace, hhold, htdo⟩ := tapReset_spec { s.pins with trace := [], tdoIn := c.tdo }
  rw [List.nil_append] at htrace
  refine ⟨_, step_starts_run hidle hcalls, rfl, rfl, rfl, rfl, rfl, rfl, rfl, rfl, rfl, rfl, hhold, ?_, ?_, htdo,
    rfl, rfl, startRun_tapTracked _ _, fun hcfg hwf => ?_⟩
  · exact (congrArg drivenPins htrace).trans ((drivenPins_map_full ..).trans (by rw [hl]))
  · exact (congrArg List.length htrace).trans ((List.length_map _).trans hl)
  · rw [hcalls] at hwf
    exact startRun_inv hcfg (hwf c List.mem_cons_self) fun r hr => hwf r (List.mem_cons_of_mem c hr)

/-- A full pulse overwrites the TMS latch. -/
theorem drivePulse_withTmsHold (tdi tms hold : Bool) (p : Pins) :
    drivePulse tdi tms { p with tmsHold := hold } = drivePulse tdi tms p := by
  obtain ⟨_, _, _, _ | _, _⟩ := p <;> rfl

theorem drivePulse_withTapState (tdi tms : Bool) (a : TapState) (p : Pins) :
    drivePulse tdi tms { p with tapState := a } = { drivePulse tdi tms p with tapState := a } := by
  obtain ⟨_, _, _, _ | _, _⟩ := p <;> rfl

/-- The pulses of `Reset()` are not tracked (R104, D33). -/
theorem driveReset_withTapState (n : Nat) (a : TapState) (p : Pins) :
    driveReset n { p with tapState := a } = { driveReset n p with tapState := a } := by
  induction n generalizing p with
  | zero => rfl
  | succ n ih => rw [driveReset, drivePulse_withTapState, ih, driveReset]

/-- `Reset()` forgets the tracked state and the TMS latch. -/
theorem tapReset_withTapAndHold (a : TapState) (hold : Bool) (p : Pins) :
    tapReset { p with tapState := a, tmsHold := hold } = tapReset p := by
  have hpulse : driveReset resetPulses { p with tmsHold := hold } = driveReset resetPulses p := by
    rw [resetPulses, driveReset, drivePulse_withTmsHold, ← driveReset]
  rw [tapReset, driveReset_withTapState resetPulses a { p with tmsHold := hold }, hpulse, tapReset]

/-- The prologue reads the configuration, the calls and the model's counter of free values only (R145, R270). -/
theorem startRun_congr {s u : State} (c : RunCall) (hcfg : s.cfg = u.cfg) (hcalls : s.ctl.calls = u.ctl.calls)
    (hdraws : s.pins.freeDraws = u.pins.freeDraws) : startRun c s = startRun c u := by
  have hpins : tapReset { s.pins with trace := [], tdoIn := c.tdo } =
      tapReset { u.pins with trace := [], tdoIn := c.tdo } := by
    rw [← tapReset_withTapAndHold u.pins.tapState u.pins.tmsHold { s.pins with trace := [], tdoIn := c.tdo }, hdraws]
  rw [startRun, startRun, hpins, hcfg, hcalls]

/-- Settles O59: both steps are the prologue on the same call. -/
theorem newRunForgetsThePreviousOne : Obligations.NewRunForgetsThePreviousOne := by
  unfold Obligations.NewRunForgetsThePreviousOne
  intro s u hs hu hcalls hne hcfg hdraws
  obtain ⟨c, rest, hc⟩ := List.exists_cons_of_ne_nil hne
  rw [step_starts_run hs hc, step_starts_run hu (hcalls.symm.trans hc)]
  exact congrArg _ (startRun_congr c hcfg rfl hdraws)

/-- The 32 reset pulses, whatever the target answered to them (R41, R104). -/
theorem drivenPins_reset : drivenPins State.reset.pins.trace = List.replicate 32 (false, true) := by
  have htrace : State.reset.pins.trace =
      ((List.range resetPulses).map Config.freeTdo).map fun b => PinEvent.full false true b :=
    (List.map_map ..).symm
  rw [htrace, drivenPins_map_full, List.length_map, List.length_range, resetPulses]

/-- Settles O60: field by field, as `State.reset` and `powerUp` are written. -/
theorem resetLeavesTheListedValues : Obligations.ResetLeavesTheListedValues := by
  unfold Obligations.ResetLeavesTheListedValues
  refine ⟨rfl, rfl, rfl, rfl, rfl, rfl, rfl, rfl, rfl, rfl, rfl, rfl, rfl, drivenPins_reset, rfl, fun s => ?_⟩
  exact ⟨rfl, rfl, rfl, rfl, rfl, rfl, rfl, rfl, rfl⟩

end Sys2Proof.Machine

/-!
O12 to O16 (10_state.md R23 to R27, 40_tap.md): the graph, its shortest paths, `GotoState` and `Reset`.
-/

namespace Sys2Proof.Machine

/-- Settles O12: the table row by row. -/
theorem transitionTableHasTheListedProperties : Obligations.TransitionTableHasTheListedProperties := by
  unfold Obligations.TransitionTableHasTheListedProperties
  refine ⟨fun a b => ?_, fun a b => ?_, rfl, rfl, fun a b => ?_, fun a => ?_⟩
  · cases a <;> cases b <;> decide
  · cases a <;> cases b <;> decide
  · cases a <;> cases b <;> decide
  · cases a <;> rfl

theorem tapDist_eq_zero_iff (a t : TapState) : tapDist a t = 0 ↔ a = t := by
  refine ⟨fun h => ?_, fun h => h ▸ tapDist_self a⟩
  by_contra hne
  have hstep := tapDist_step a t hne
  omega

/-- The route reaches its target after `dist` steps: every step lowers the distance by one (R26). -/
theorem foldl_routeTms (n : Nat) (a t : TapState) (hn : tapDist a t = n) :
    (routeTms n a t).foldl tapNext a = t := by
  induction n generalizing a with
  | zero => exact (tapDist_eq_zero_iff a t).1 hn
  | succ n ih =>
    have hne : a ≠ t := fun h => by rw [(tapDist_eq_zero_iff a t).2 h] at hn; omega
    have hstep := tapDist_step a t hne
    exact ih _ (by omega)

/-- Settles O13: the four facts about the route and its distances. -/
theorem routeReachesEveryTargetInDistSteps : Obligations.RouteReachesEveryTargetInDistSteps := by
  unfold Obligations.RouteReachesEveryTargetInDistSteps
  exact fun a t => ⟨foldl_routeTms _ a t rfl, tapDist_le_diameter a t, tapDist_eq_zero_iff a t, tapDist_step a t⟩

theorem TapState.mem_all (a : TapState) : a ∈ TapState.all := by cases a <;> decide

/-- No edge of the graph lowers a distance by more than one. -/
theorem tapDist_le_tapDist_tapNext (a t : TapState) (tms : Bool) :
    tapDist a t ≤ tapDist (tapNext a tms) t + 1 := by
  have hall : ∀ a ∈ TapState.all, ∀ t ∈ TapState.all, ∀ tms,
      tapDist a t ≤ tapDist (tapNext a tms) t + 1 := by decide
  exact hall a a.mem_all t t.mem_all tms

/-- Settles O14: along any sequence each pulse lowers the distance by at most one, and it ends at 0. -/
theorem noTmsSequenceIsShorterThanTheRoute : Obligations.NoTmsSequenceIsShorterThanTheRoute := by
  unfold Obligations.NoTmsSequenceIsShorterThanTheRoute
  intro tms
  induction tms with
  | nil => intro a t h; exact ((tapDist_eq_zero_iff a t).2 h).le
  | cons b tms ih =>
    intro a t h
    have hrest : tapDist (tapNext a b) t ≤ tms.length := ih _ _ h
    calc tapDist a t ≤ tapDist (tapNext a b) t + 1 := tapDist_le_tapDist_tapNext a t b
      _ ≤ (b :: tms).length := Nat.succ_le_succ hrest

theorem gotoState_self (p : Pins) : gotoState p.tapState p = p := if_pos rfl

/-- Settles O15: the loop drives along the route, `gotoState_drives`. -/
theorem gotoStateDrivesTheShortestPath : Obligations.GotoStateDrivesTheShortestPath := by
  unfold Obligations.GotoStateDrivesTheShortestPath
  intro t p
  obtain ⟨more, -, hd, hpins, -, hlen⟩ := gotoState_drives t p
  refine ⟨gotoState_tapState t p, ?_, ?_, gotoState_samples t p, gotoState_self p⟩
  · rw [hd.trace, drivenPins_append, hpins]
  · rw [hd.trace, List.length_append, hlen]

/-- Settles O16: 32 untracked pulses, then the tracked state is set. -/
theorem resetReachesTestLogicResetFromAnyState : Obligations.ResetReachesTestLogicResetFromAnyState := by
  unfold Obligations.ResetReachesTestLogicResetFromAnyState
  intro p
  obtain ⟨tdo, hl, htrace, hhold, htdo⟩ := tapReset_spec p
  obtain ⟨-, -, -, hhold', -⟩ := tapReset_spec (tapReset p)
  exact ⟨rfl, hhold, ⟨tdo, hl, htrace⟩, htdo, rfl, hhold'.trans hhold.symm⟩

end Sys2Proof.Machine

/-!
O11, O17 to O21, O23, O24 (20_memory.md R55, 41_shift.md, 42_interpreter.md R146): operand buffers, the two shift
engines, the compare and `PostScan`.
-/

namespace Sys2Proof.Machine

theorem getD_set (buf : List Byte) (j k : Nat) (b : Byte) (hk : k < buf.length) :
    (buf.set j b).getD k 0 = if j = k then b else buf.getD k 0 := by
  by_cases h : j = k
  · subst h; simp [hk]
  · simp [h]

/-- What `ReadVector` leaves at each position (R55). -/
theorem fillVector_getD (cap nb : Nat) (v buf : List Byte) (k : Nat) (hk : k < buf.length) :
    (fillVector cap nb v buf).getD k 0 =
      if k < nb ∧ k < cap ∧ nb - 1 - k < v.length then v.getD (nb - 1 - k) 0 else buf.getD k 0 := by
  induction nb generalizing v buf with
  | zero => simp [fillVector]
  | succ nb ih =>
    cases v with
    | nil => simp [fillVector]
    | cons b v =>
      have hlen : k < (if nb < cap then buf.set nb b else buf).length := by split <;> simpa using hk
      have hbuf : (if nb < cap then buf.set nb b else buf).getD k 0 =
          if nb < cap ∧ nb = k then b else buf.getD k 0 := by
        by_cases hcap : nb < cap
        · rw [if_pos hcap, getD_set _ _ _ _ hk]; simp [hcap]
        · rw [if_neg hcap]; simp [hcap]
      rw [fillVector, ih v _ hlen, hbuf]
      rcases lt_trichotomy k nb with hlt | rfl | hgt
      · have hpos : nb + 1 - 1 - k = (nb - 1 - k) + 1 := by omega
        rw [hpos, List.getD_cons_succ, if_neg (c := nb < cap ∧ nb = k) (by omega)]
        exact if_congr (by simp; omega) rfl rfl
      · rw [if_neg (by omega), Nat.add_sub_cancel, Nat.sub_self, List.getD_cons_zero]
        exact if_congr (by simp) rfl rfl
      · rw [if_neg (by omega), if_neg (by omega), if_neg (by omega)]

/-- Settles O11: position by position, `fillVector_getD`. -/
theorem readVectorFillsDownwardFromTheTopPosition : Obligations.ReadVectorFillsDownwardFromTheTopPosition := by
  unfold Obligations.ReadVectorFillsDownwardFromTheTopPosition
  exact fun cap nb v buf => ⟨fillVector_length cap nb v buf, fun k hk => fillVector_getD cap nb v buf k hk⟩

/-- A whole operand lies in the buffer in reverse of stream order. -/
theorem fillVector_vectorRead {cap nb : Nat} {v buf : List Byte} (hv : v.length = nb) (hbuf : buf.length = cap) :
    VectorRead v buf (fillVector cap nb v buf) := by
  refine ⟨fillVector_length .., fun k hk => ?_⟩
  rw [fillVector_length] at hk
  rw [fillVector_getD _ _ _ _ _ hk]
  by_cases hlt : k < v.length
  · rw [if_pos (by omega), if_pos hlt, List.getD_eq_getElem?_getD, List.getD_eq_getElem?_getD,
      List.getElem?_reverse hlt, hv]
  · rw [if_neg (by omega), if_neg hlt]

/-- Where a checked shift leaves the TAP (R124, R128). -/
theorem shiftChecked_tapState {s : State} (n : Nat) (exit : Bool)
    (hs : s.pins.tapState = .shiftDR ∨ s.pins.tapState = .shiftIR) :
    (shiftChecked n exit s).pins.tapState =
      if exit = true ∧ n ≠ 0 then tapNext s.pins.tapState true else s.pins.tapState := by
  obtain ⟨more, hd, hpins, -⟩ := shiftChecked_spec n exit s
  rw [hd.tap, tapAfter_of_driven hpins, tap_after_shiftPins _ _ _ _ hs]

theorem shiftChecked_samePlatform (n : Nat) (exit : Bool) (s : State) : SamePlatform s (shiftChecked n exit s) := by
  obtain ⟨_, -, -, -, -, -, hplat⟩ := shiftChecked_spec n exit s
  exact hplat

/-- A checked shift writes `tdo_captured` only. -/
theorem shiftChecked_ctx_frame (n : Nat) (exit : Bool) (s : State) :
    (shiftChecked n exit s).ctx = { s.ctx with tdoCaptured := (shiftChecked n exit s).ctx.tdoCaptured } := by
  rw [shiftChecked_ctx n exit s]

/-- Settles O17: one lemma for each of the pulses, the samples, the TAP and the frame. -/
theorem shiftCheckedDrivesEveryBitLeastSignificantFirst :
    Obligations.ShiftCheckedDrivesEveryBitLeastSignificantFirst := by
  unfold Obligations.ShiftCheckedDrivesEveryBitLeastSignificantFirst
  exact fun s n exit hs => ⟨shiftChecked_drivenPins n exit s, shiftChecked_samples n exit s,
    shiftChecked_tapState n exit hs, shiftChecked_samePlatform n exit s, shiftChecked_ctx_frame n exit s⟩

/-- The bits of the captured bytes after `k` answers: the answers below `k`, the rest as it was. -/
theorem bufBit_captureUpTo {cap : Nat} {bits : List Bool} {buf : List Byte} (hbuf : buf.length = cap) (k j : Nat)
    (hj : j / 8 < cap) :
    bufBit (captureUpTo cap bits buf k) j = if j < k then bits.getD j false else bufBit buf j := by
  induction k with
  | zero => rw [if_neg (Nat.not_lt_zero j)]; rfl
  | succ k ih =>
    have hsucc : captureUpTo cap bits buf (k + 1) =
        setBufBit cap (captureUpTo cap bits buf k) k (bits.getD k false) := by
      simp only [captureUpTo, List.range_succ, List.foldl_append, List.foldl_cons, List.foldl_nil]
    rw [hsucc]
    by_cases hk : k / 8 < cap
    · rw [bufBit_setBufBit _ _ _ _ _ (by rw [captureUpTo_length, hbuf]; exact hk), ih]
      rcases lt_trichotomy j k with hlt | rfl | hgt
      · rw [if_neg (by omega), if_pos hlt, if_pos (by omega)]
      · rw [if_pos ⟨hk, rfl⟩, if_pos (Nat.lt_succ_self j)]
      · rw [if_neg (by omega), if_neg (by omega), if_neg (by omega)]
    · rw [setBufBit_of_cap_le (Nat.not_lt.1 hk), ih, if_pos (by omega), if_pos (by omega)]

/-- The bits of a buffer whose first `k` bytes were cleared. -/
theorem bufBit_clearBytes (k j : Nat) (buf : List Byte) :
    bufBit (clearBytes k buf) j = if j / 8 < k then false else bufBit buf j := by
  rw [bufBit, clearBytes_getD]
  split
  · exact BitVec.getLsbD_zero
  · rfl

/-- The answers put into the cleared bytes are what a checked shift is to capture (R121, R129, D13). -/
theorem captured_captureUpTo {cap n : Nat} {bits : List Bool} {buf : List Byte} (hbuf : buf.length = cap) :
    Captured n bits buf (captureUpTo cap bits (clearBytes (min (ceil8 n) cap) buf) n) := by
  refine ⟨by rw [captureUpTo_length, clearBytes_length], fun j hj => ?_⟩
  rw [captureUpTo_length, clearBytes_length, hbuf] at hj
  rw [bufBit_captureUpTo (by rw [clearBytes_length, hbuf]) _ _ hj, bufBit_clearBytes]
  unfold ceil8
  by_cases hn : j < n
  · rw [if_pos hn, if_pos (by omega), decide_eq_true hn, Bool.true_and]
  · rw [if_neg hn, decide_eq_false hn, Bool.false_and]
    exact if_congr (by omega) rfl rfl

/-- What a checked shift captures (R121, R129). -/
theorem shiftChecked_captured {s : State} (n : Nat) (exit : Bool) (hbuf : s.ctx.tdoCaptured.length = s.cfg.cmpBytes) :
    Captured n ((sampledTdo (shiftChecked n exit s).pins.trace).drop (sampledTdo s.pins.trace).length)
      s.ctx.tdoCaptured (shiftChecked n exit s).ctx.tdoCaptured := by
  rw [shiftChecked_ctx n exit s]
  exact captured_captureUpTo hbuf

/-- Settles O18: the answers go bit by bit into bytes that were cleared first. -/
theorem shiftCheckedCapturesTheAnswersBelowTheBound : Obligations.ShiftCheckedCapturesTheAnswersBelowTheBound := by
  unfold Obligations.ShiftCheckedCapturesTheAnswersBelowTheBound
  exact fun s n exit hbuf => shiftChecked_captured n exit hbuf

/-- The bits of a fast shift before the last one: fast pulses, which move neither the latch nor the answers (R126). -/
theorem foldl_fastBit_below (n : Nat) (exit : Bool) (buf : List Byte) (p : Pins) (k : Nat) (hk : k < n) :
    let q := (List.range k).foldl (fun p j => fastBit n exit buf j p) p
    q.trace = p.trace ++ ((List.range k).map fun j => PinEvent.fast (bufBit buf j) p.tmsHold) ∧
      q.tmsHold = p.tmsHold ∧ q.tdoIn = p.tdoIn ∧ q.freeDraws = p.freeDraws := by
  induction k with
  | zero => simp
  | succ k ih =>
    obtain ⟨htrace, hhold, htdo, hfree⟩ := ih (by omega)
    simp only [List.range_succ, List.foldl_append, List.foldl_cons, List.foldl_nil, List.map_append, List.map_cons,
      List.map_nil]
    rw [fastBit, if_pos hk]
    refine ⟨?_, hhold, htdo, hfree⟩
    rw [clockFast_trace, htrace, hhold, List.append_assoc]

theorem tdoNow_congr {p q : Pins} (htdo : q.tdoIn = p.tdoIn) (hfree : q.freeDraws = p.freeDraws) :
    tdoNow q = tdoNow p := by rw [tdoNow, tdoNow, htdo, hfree]

theorem takeTdo_tdoIn (p : Pins) : (takeTdo p).tdoIn = p.tdoIn.drop 1 := by
  unfold takeTdo
  split <;> rename_i h <;> simp [h]

/-- The events of a fast shift of at least one bit (R126, D20). -/
theorem shiftFast_events (n : Nat) (exit : Bool) (s : State) (hn : n ≠ 0) :
    (shiftFast n exit s).pins.trace = s.pins.trace ++
        ((List.range (n - 1)).map fun j => PinEvent.fast (bufBit s.ctx.tdiBuf j) s.pins.tmsHold) ++
        [PinEvent.full (bufBit s.ctx.tdiBuf (n - 1)) exit (tdoNow s.pins)] ∧
      (shiftFast n exit s).pins.tmsHold = exit ∧
      (shiftFast n exit s).pins.tdoIn = s.pins.tdoIn.drop 1 := by
  obtain ⟨m, rfl⟩ := Nat.exists_eq_succ_of_ne_zero hn
  obtain ⟨htrace, -, htdo, hfree⟩ := foldl_fastBit_below (m + 1) exit s.ctx.tdiBuf s.pins m (Nat.lt_succ_self m)
  rw [shiftFast_pins, List.range_succ, List.foldl_append, List.foldl_cons, List.foldl_nil, fastBit,
    if_neg (Nat.lt_irrefl _), clockFull_trace, htrace, tdoNow_congr htdo hfree, clockFull_tdoIn, takeTdo_tdoIn, htdo]
  exact ⟨rfl, rfl, rfl⟩

theorem sampledTdo_map_fast (f : Nat → Bool) (tms : Bool) (l : List Nat) :
    sampledTdo (l.map fun j => PinEvent.fast (f j) tms) = [] := by
  induction l with
  | nil => rfl
  | cons j l ih => exact ih

/-- Settles O19: no bit is no pulse, else the events of `shiftFast_events`. -/
theorem shiftFastSamplesOnlyTheLastBit : Obligations.ShiftFastSamplesOnlyTheLastBit := by
  unfold Obligations.ShiftFastSamplesOnlyTheLastBit
  intro s n exit
  by_cases hn : n = 0
  · subst hn
    exact ⟨fun _ => rfl, fun h => absurd rfl h, rfl, rfl, rfl, rfl, rfl, rfl⟩
  · obtain ⟨htrace, hhold, htdo⟩ := shiftFast_events n exit s hn
    refine ⟨fun h => absurd h hn, fun _ => ⟨htrace, hhold, htdo⟩, ?_, ?_, rfl, rfl, rfl, rfl⟩
    · rw [htrace, sampledTdo_append, sampledTdo_append, sampledTdo_map_fast, if_neg hn]
      simp
    · rw [htrace]
      simp only [List.length_append, List.length_map, List.length_range, List.length_cons, List.length_nil]
      omega

/-- Settles O20: both engines drive `shiftPins`, and state and latch follow the pins driven. -/
theorem checkedAndFastShiftsDriveTheSamePins : Obligations.CheckedAndFastShiftsDriveTheSamePins := by
  unfold Obligations.CheckedAndFastShiftsDriveTheSamePins
  intro s n exit _ hhold
  obtain ⟨mc, hc, hpc, -⟩ := shiftChecked_spec n exit s
  obtain ⟨mf, hf, hpf, -⟩ := shiftFast_spec n exit s hhold
  refine ⟨?_, ?_, ?_⟩
  · rw [hc.trace, hf.trace, drivenPins_append, drivenPins_append, hpc, hpf]
  · rw [hc.tap, hf.tap, tapAfter_of_driven hpc, tapAfter_of_driven hpf]
  · rw [hc.hold, hf.hold, hpc, hpf]

theorem matched_iff_comparesEqual (n : Nat) (s : State) : matched n s = true ↔ ComparesEqual n s := by
  simp [matched, compareBytes, ComparesEqual]

/-- Two bytes agree under a mask when they agree on the bits it has. -/
theorem and_eq_and_iff (x y m : Byte) :
    x &&& m = y &&& m ↔ ∀ i < 8, m.getLsbD i = true → x.getLsbD i = y.getLsbD i := by
  constructor
  · intro h i _ hm
    have hbit := congrArg (BitVec.getLsbD · i) h
    simpa [hm] using hbit
  · intro h
    apply BitVec.eq_of_getLsbD_eq
    intro i hi
    cases hm : m.getLsbD i with
    | true => simp [hm, h i hi hm]
    | false => simp [hm]

/-- The compare bit by bit (R123). -/
theorem comparesEqual_iff_bits (n : Nat) (s : State) :
    ComparesEqual n s ↔ ∀ j, j / 8 < min (ceil8 n) s.cfg.cmpBytes → bufBit s.ctx.tdoMask j = true →
      bufBit s.ctx.tdoCaptured j = bufBit s.ctx.tdoExpected j := by
  constructor
  · intro h j hj hm
    exact (and_eq_and_iff _ _ _).1 (h (j / 8) hj) (j % 8) (Nat.mod_lt _ (by decide)) hm
  · intro h k hk
    refine (and_eq_and_iff _ _ _).2 fun i hi hm => ?_
    have hdiv : (8 * k + i) / 8 = k := by omega
    have hmod : (8 * k + i) % 8 = i := by omega
    have hbit := h (8 * k + i) (by rw [hdiv]; exact hk)
    simp only [bufBit, hdiv, hmod] at hbit
    exact hbit hm

/-- Settles O21: bytewise by the definition of the compare, bitwise by the bits of the masked bytes. -/
theorem matchedComparesMaskedBytesBelowTheBoundOnly : Obligations.MatchedComparesMaskedBytesBelowTheBoundOnly := by
  unfold Obligations.MatchedComparesMaskedBytesBelowTheBoundOnly
  exact fun n s => ⟨matched_iff_comparesEqual n s,
    (matched_iff_comparesEqual n s).trans (comparesEqual_iff_bits n s)⟩

/-- The bits of a buffer an operand was read into are the bits of the value it spells (R8, R55). -/
theorem VectorRead.bufBit_eq {v old new : List Byte} (h : VectorRead v old new) {j : Nat} (hv : j / 8 < v.length)
    (hnew : j / 8 < new.length) : bufBit new j = vectorBit v j := by
  rw [bufBit, h.2 _ hnew, if_pos hv, vectorBit]

theorem shiftPins_congr {n : Nat} {f g : Nat → Bool} (exit : Bool) (h : ∀ j < n, f j = g j) :
    shiftPins n exit f = shiftPins n exit g :=
  List.map_congr_left fun j hj => by rw [h j (List.mem_range.1 hj)]

theorem fastShiftActions_congr {n : Nat} {f g : Nat → Bool} (exit : Bool) (h : ∀ j < n, f j = g j) :
    fastShiftActions n exit f = fastShiftActions n exit g := by
  unfold fastShiftActions
  split
  · rfl
  · have hlow : ∀ j ∈ List.range (n - 1), PinAction.fast (f j) false = PinAction.fast (g j) false := fun j hj => by
      rw [h j (by have := List.mem_range.1 hj; omega)]
    rw [List.map_congr_left hlow, h (n - 1) (by omega)]

theorem ceil8_le_tdiBytes {s : State} {n : Nat} (hs : Inv s) (hn : n ≤ s.cfg.maxTdiBits) :
    ceil8 n ≤ s.cfg.tdiBytes := by
  obtain ⟨-, hmod, -⟩ := hs.cfgOk
  unfold ceil8 Params.tdiBytes
  omega

theorem readTdi_vectorRead {s : State} {n : Nat} {v : List Byte} (hs : Inv s) (hv : v.length = ceil8 n) :
    VectorRead v s.ctx.tdiBuf (readTdi n v s).ctx.tdiBuf := fillVector_vectorRead hv hs.tdiBufSize

/-- After `ReadVector` of a scan that fits, `tdi_buf` holds the operand's value on every bit of the scan. -/
theorem bufBit_readTdi {s : State} {n : Nat} {v : List Byte} (hs : Inv s) (hv : v.length = ceil8 n)
    (hn : n ≤ s.cfg.maxTdiBits) : ∀ j < n, bufBit (readTdi n v s).ctx.tdiBuf j = vectorBit v j := by
  intro j hj
  have hbyte : j / 8 < ceil8 n := by unfold ceil8; omega
  have hfits := ceil8_le_tdiBytes hs hn
  have hlen : (readTdi n v s).ctx.tdiBuf.length = s.cfg.tdiBytes :=
    (readTdi_vectorRead hs hv).1.trans hs.tdiBufSize
  exact (readTdi_vectorRead hs hv).bufBit_eq (hv ▸ hbyte) (by omega)

/-- The bytes of a value, most significant first, spell it. -/
theorem vectorBit_byteAt (w nb j : Nat) (hj : j / 8 < nb) :
    vectorBit ((List.range nb).map fun m => byteAt w (nb - 1 - m)) j = w.testBit j := by
  have hlen : j / 8 < ((List.range nb).map fun m => byteAt w (nb - 1 - m)).length := by simpa using hj
  have hmap : nb - 1 - (nb - 1 - j / 8) = j / 8 := by omega
  have hlt : nb - 1 - j / 8 < nb := by omega
  rw [vectorBit, List.getD_eq_getElem?_getD, List.getElem?_reverse hlen]
  simp only [List.length_map, List.length_range, List.getElem?_map, List.getElem?_range hlt, Option.map_some,
    Option.getD_some, hmap, byteAt, BitVec.getLsbD_ofNat, Nat.testBit_shiftRight, Nat.div_add_mod,
    Nat.mod_lt j (by decide : 0 < 8), decide_true, Bool.true_and]

theorem shiftFast_drivenPins (n : Nat) (exit : Bool) (s : State) (hhold : s.pins.tmsHold = false) :
    drivenPins (shiftFast n exit s).pins.trace =
      drivenPins s.pins.trace ++ shiftPins n exit (bufBit s.ctx.tdiBuf) := by
  obtain ⟨more, hd, hp, -⟩ := shiftFast_spec n exit s hhold
  rw [hd.trace, drivenPins_append, hp]

/-- Settles O23: the bytes spell the value, the buffer holds it bit by bit, and both engines shift out the buffer. -/
theorem bigEndianVectorShiftsOutItsValueBitByBit : Obligations.BigEndianVectorShiftsOutItsValueBitByBit := by
  unfold Obligations.BigEndianVectorShiftsOutItsValueBitByBit
  intro s n exit v hs htap hn bytes
  have hlen : bytes.length = ceil8 n := by simp [bytes]
  have hbits : ∀ j < n, bufBit (readTdi n bytes s).ctx.tdiBuf j = v.getLsbD j := fun j hj =>
    (bufBit_readTdi hs hlen hn j hj).trans (vectorBit_byteAt _ _ _ (by unfold ceil8; omega))
  have hhold : (readTdi n bytes s).pins.tmsHold = false := hs.shiftHold (.inl htap)
  rw [shiftChecked_drivenPins, shiftFast_drivenPins n exit _ hhold, shiftPins_congr exit hbits]
  exact ⟨rfl, rfl⟩

theorem holdAfter_replicate {n : Nat} (hn : n ≠ 0) (h : Bool) (x : Bool × Bool) :
    holdAfter h (List.replicate n x) = x.2 := by
  obtain ⟨m, rfl⟩ := Nat.exists_eq_succ_of_ne_zero hn
  rw [List.replicate_succ', holdAfter_concat]

/-- Settles O24: the two branches of `PostScan`; the run-test cycles stay in RunTest with TMS at 0. -/
theorem postScanAppliesPendingCyclesElseGoesToTheEndState :
    Obligations.PostScanAppliesPendingCyclesElseGoesToTheEndState := by
  unfold Obligations.PostScanAppliesPendingCyclesElseGoesToTheEndState
  intro e s
  refine ⟨postScan_idle e s, fun hn => ?_⟩
  obtain ⟨tdo, hl, hd⟩ := runTestCycles_spec s.ctx.pendingRuntest.toNat (gotoState .runTest s.pins)
  rw [postScan_pending e s hn]
  refine ⟨⟨tdo, hl, hd.trace⟩, ?_, ?_, rfl, rfl, rfl, rfl⟩
  · simp only
    rw [hd.tap, tapAfter_of_driven (drivenPins_cycles tdo), gotoState_tapState, foldl_cycles]
  · simp only
    have hcount : s.ctx.pendingRuntest.toNat ≠ 0 := fun h0 => hn (BitVec.eq_of_toNat_eq h0)
    rw [hd.hold, drivenPins_cycles, hl, holdAfter_replicate hcount]

end Sys2Proof.Machine

/-!
O25 to O29, O31, O41 to O44 (43_xsvf_context.md, 44_xsvf_scan.md R181, 46_xsvf_control.md): the context-setting and the
control opcodes, and the over-long instruction scan.
-/

namespace Sys2Proof.Machine

/-- XTDOMASK with its operand whole (R160). -/
theorem exec_xtdomask_of_whole {s : State} {mask : List Byte} (hm : mask.length = ceil8 (scanBits s)) :
    exec (.xtdomask mask) s = .next (readMask (scanBits s) mask s) := if_pos hm.ge

/-- Settles O25: the mask is read whole and nothing is left to do. -/
theorem xtdomaskLoadsTheMaskAndNothingElse : Obligations.XtdomaskLoadsTheMaskAndNothingElse := by
  unfold Obligations.XtdomaskLoadsTheMaskAndNothingElse
  intro s mask hs hm
  exact ⟨_, fillVector_vectorRead hm hs.tdoMaskSize, exec_xtdomask_of_whole hm⟩

theorem sourceBytes_of_none {src : ByteSource} {a : Nat} (h : sourceByte src a = none) (n : Nat) :
    sourceBytes src a n = [] := by
  cases n with
  | zero => rfl
  | succ n => rw [sourceBytes, h]

/-- An opcode byte with nothing after it: the end of the source is met at its first operand byte. -/
theorem decode_opcode_alone {s : State} (o : Opcode) (hd : s.cfg.opcodes.distinct)
    (hop : sourceByte s.source s.source.cursor = some (s.cfg.opcodes.byteOf o))
    (hend : sourceByte s.source (s.source.cursor + 1) = none) :
    decode s.cfg s.ctx.sdrSize (fetchWindow s) = decodeOperands s.cfg s.ctx.sdrSize o [] := by
  rw [fetchWindow_of_sourceByte hop, sourceBytes_of_none hend, decode_byteOf_cons _ _ hd]

/-- Settles O26: the stream form from O6's rule; a missing count is the decoder's `exhausted` after the opcode byte. -/
theorem xrepeatReadsItsCountAndChangesNothing : Obligations.XrepeatReadsItsCountAndChangesNothing := by
  unfold Obligations.XrepeatReadsItsCountAndChangesNothing
  refine ⟨fun _ _ => rfl, rfl, fun s hr hd hop => ⟨fun count hcount => ?_, fun hend heos => ?_⟩⟩
  · have hargs : ∀ k < (operandBytes (.xrepeat count)).length,
        sourceByte s.source (s.source.cursor + 1 + k) = (operandBytes (.xrepeat count))[k]? := by
      intro k hk
      obtain rfl : k = 0 := Nat.lt_one_iff.1 hk
      exact hcount
    exact (stepRunsTheInstructionTheStreamHolds s (.xrepeat count) hr hd rfl hop hargs).1
  · have hdec : decode s.cfg s.ctx.sdrSize (fetchWindow s) = .exhausted 1 :=
      decode_opcode_alone .xrepeat hd hop hend
    have hstep : step s = sourceEnd (advance 1 s) := by simp only [step, stepWith, if_pos hr, hdec]
    exact hstep.trans (sourceEnd_of_eos heos)

/-- Settles O27: the meaning as it is written. -/
theorem xruntestSetsThePendingCount : Obligations.XruntestSetsThePendingCount := by
  unfold Obligations.XruntestSetsThePendingCount
  exact fun _ _ => rfl

/-- Settles O28: the two sides of the length test. -/
theorem xsdrsizeSetsTheWidthOrOverflows : Obligations.XsdrsizeSetsTheWidthOrOverflows := by
  unfold Obligations.XsdrsizeSetsTheWidthOrOverflows
  exact fun s size => ⟨fun hle => if_neg (Nat.not_lt.2 hle), fun hlt => if_pos hlt⟩

theorem ite_byteTrue {α : Type} (b : Byte) (x y : α) :
    (if byteTrue b = true then x else y) = if b = 0 then y else x := by
  by_cases h : b = 0 <;> simp [byteTrue, h]

/-- Settles O29: a boolean byte is true when it is not zero. -/
theorem xendirAndXenddrSelectTheEndState : Obligations.XendirAndXenddrSelectTheEndState := by
  unfold Obligations.XendirAndXenddrSelectTheEndState
  intro s flag
  rw [← ite_byteTrue flag TapState.pauseIR, ← ite_byteTrue flag TapState.pauseDR]
  exact ⟨rfl, rfl⟩

/-- XSIR and XSIR2 are one instruction scan (R182). -/
theorem exec_irScan {s : State} {i : Instr} {n : Nat} {tdi : List Byte}
    (hi : (∃ len : Byte, i = .xsir len tdi ∧ n = len.toNat) ∨
      (∃ len : BitVec 16, i = .xsir2 len tdi ∧ n = len.toNat)) : exec i s = irScan n tdi s := by
  obtain ⟨len, rfl, rfl⟩ | ⟨len, rfl, rfl⟩ := hi <;> rfl

theorem wellFormed_irScan {p : Params} {sdr : Word32} {i : Instr} {n : Nat} {tdi : List Byte}
    (hi : (∃ len : Byte, i = .xsir len tdi ∧ n = len.toNat) ∨
      (∃ len : BitVec 16, i = .xsir2 len tdi ∧ n = len.toNat)) (hw : i.wellFormed p sdr = true) :
    tdi.length = irDataBytes p n := by
  obtain ⟨len, rfl, rfl⟩ | ⟨len, rfl, rfl⟩ := hi <;> simpa [Instr.wellFormed] using hw

/-- Settles O31: the length test comes first, and an over-long scan has no data bytes. -/
theorem instructionScanLongerThanTheMaximumOverflows : Obligations.InstructionScanLongerThanTheMaximumOverflows := by
  unfold Obligations.InstructionScanLongerThanTheMaximumOverflows
  intro s i n tdi hi hlong
  refine ⟨(exec_irScan hi).trans (if_pos hlong), fun hw => ?_⟩
  have hlen := wellFormed_irScan hi hw
  rw [irDataBytes, if_pos hlong] at hlen
  exact List.eq_nil_of_length_eq_zero hlen

theorem exec_xstate_some {s : State} {b : Byte} {u : TapState} (h : TapState.ofByte b = some u) :
    exec (.xstate b) s = .next (navigate u s) := by
  simp only [exec, execXstate, h]

/-- The bytes 0 to 15 name the states with those ids (R20, R77). -/
theorem ofByte_of_le {b : Byte} (h : b.toNat ≤ 15) : ∃ u, TapState.ofByte b = some u ∧ u.id.toNat = b.toNat := by
  have hids : ∀ k < 16, TapState.all[k]?.map (·.id.toNat) = some k := by decide
  exact Option.map_eq_some_iff.1 (hids b.toNat (by omega))

theorem gotoState_drivenPins (t : TapState) (p : Pins) :
    drivenPins (gotoState t p).trace = drivenPins p.trace ++ navPins p.tapState t :=
  (gotoStateDrivesTheShortestPath t p).2.1

/-- Settles O41: the byte names its state, and `GotoState` goes there. -/
theorem xstateMovesToTheStateItsByteNames : Obligations.XstateMovesToTheStateItsByteNames := by
  unfold Obligations.XstateMovesToTheStateItsByteNames
  intro s b hb
  obtain ⟨u, hu, hid⟩ := ofByte_of_le hb
  exact ⟨u, _, exec_xstate_some hu, hid, gotoState_tapState u s.pins, gotoState_drivenPins u s.pins, rfl, rfl, rfl,
    rfl⟩

/-- Settles O42: a byte above 15 lies past the list of the 16 states. -/
theorem xstateByteAboveFifteenFaults : Obligations.XstateByteAboveFifteenFaults := by
  unfold Obligations.XstateByteAboveFifteenFaults
  intro s b hb
  have hnone : TapState.ofByte b = none := List.getElem?_eq_none hb
  simp only [exec, execXstate, hnone]
  rfl

/-- Settles O43: the meaning as it is written. -/
theorem xcompleteEndsTheRunWithSuccess : Obligations.XcompleteEndsTheRunWithSuccess := by
  unfold Obligations.XcompleteEndsTheRunWithSuccess
  exact fun _ => rfl

/-- Settles O44: opcode by opcode; XTDOMASK has its operand whole, and XSDRSIZE alone has a test. -/
theorem contextOpcodesDriveNoPin : Obligations.ContextOpcodesDriveNoPin := by
  unfold Obligations.ContextOpcodesDriveNoPin
  intro s t i hctx hw h
  cases i with
  | xtdomask mask =>
    rw [exec_xtdomask_of_whole (by simpa [Instr.wellFormed, scanBits] using hw)] at h
    cases h
    exact ⟨rfl, rfl, rfl, rfl, rfl, rfl, .inl rfl⟩
  | xruntest | xrepeat | xendir | xenddr =>
    cases h
    exact ⟨rfl, rfl, rfl, rfl, rfl, rfl, .inl rfl⟩
  | xsdrsize size =>
    obtain ⟨hset, hover⟩ := xsdrsizeSetsTheWidthOrOverflows s size
    by_cases hlong : s.cfg.maxTdiBits < size.toNat
    · rw [hover hlong] at h
      cases h
      exact ⟨rfl, rfl, rfl, rfl, rfl, rfl, .inr ⟨decide_eq_true hlong, rfl⟩⟩
    · rw [hset (Nat.not_lt.1 hlong)] at h
      cases h
      exact ⟨rfl, rfl, rfl, rfl, rfl, rfl, .inl rfl⟩
  | xcomplete | xsir | xsdr | xsdrtdo | xsdrb | xsdrc | xsdre | xsdrtdob | xsdrtdoc | xsdrtdoe | xstate | xsir2 =>
    cases hctx

end Sys2Proof.Machine

/-!
O30, O32 to O40 (44_xsvf_scan.md, 45_xsvf_quick.md): every scan is a walk to a shift state, a shift of the operand by
one of the two engines, and what follows it. The walk and the shift are stated once, for the pins, as `Shifted`.
-/

namespace Sys2Proof.Machine

/-- From `p` the pins went to `shift` and shifted the `n` bits `tdi` spells there: what the engine called is `acts`, and
it sampled `samples` bits. -/
structure Shifted (p q : Pins) (shift : TapState) (n : Nat) (exit : Bool) (tdi : List Byte) (acts : List PinAction)
    (samples : Nat) : Prop where
  driven : drivenPins q.trace =
    drivenPins p.trace ++ navPins p.tapState shift ++ shiftPins n exit (vectorBit tdi)
  called : actions q.trace = actions p.trace ++ fullPulses (navPins p.tapState shift) ++ acts
  samples : (sampledTdo q.trace).length = (sampledTdo p.trace).length + tapDist p.tapState shift + samples
  tap : q.tapState = if exit = true ∧ n ≠ 0 then tapNext shift true else shift

/-- A scan by the checked engine (R121). -/
abbrev CheckedShift (p q : Pins) (shift : TapState) (n : Nat) (exit : Bool) (tdi : List Byte) : Prop :=
  Shifted p q shift n exit tdi (fullPulses (shiftPins n exit (vectorBit tdi))) n

/-- A scan by the fast engine (R126). -/
abbrev FastShift (p q : Pins) (shift : TapState) (n : Nat) (exit : Bool) (tdi : List Byte) : Prop :=
  Shifted p q shift n exit tdi (fastShiftActions n exit (vectorBit tdi)) (min 1 n)

theorem shiftChecked_navigate_shifted {r : State} {shift : TapState} {n : Nat} {tdi : List Byte} (exit : Bool)
    (hshift : shift = .shiftDR ∨ shift = .shiftIR) (hbits : ∀ j < n, bufBit r.ctx.tdiBuf j = vectorBit tdi j) :
    CheckedShift r.pins (shiftChecked n exit (navigate shift r)).pins shift n exit tdi where
  driven := by rw [shiftChecked_drivenPins, navigate_ctx, shiftPins_congr exit hbits, navigate_pins,
    gotoState_drivenPins]
  called := by rw [shiftChecked_actions, navigate_ctx, shiftPins_congr exit hbits, navigate_pins, gotoState_actions]
  samples := by rw [shiftChecked_samples, navigate_pins, gotoState_samples]
  tap := by
    have hnav : (navigate shift r).pins.tapState = shift := gotoState_tapState shift r.pins
    rw [shiftChecked_tapState n exit (by rw [hnav]; exact hshift), hnav]

/-- With TMS at 0 where the walk has no pulse to drive, the walk to a shift state leaves it at 0. -/
theorem shiftFast_navigate_shifted {r : State} {n : Nat} {tdi : List Byte} (exit : Bool)
    (hhold : r.pins.tapState = .shiftDR → r.pins.tmsHold = false)
    (hbits : ∀ j < n, bufBit r.ctx.tdiBuf j = vectorBit tdi j) :
    FastShift r.pins (shiftFast n exit (navigate .shiftDR r)).pins .shiftDR n exit tdi := by
  have hlow : (navigate .shiftDR r).pins.tmsHold = false := gotoState_hold .shiftDR r.pins (.inl rfl) hhold
  obtain ⟨more, hd, hpins, hsamples, -⟩ := shiftFast_spec n exit (navigate .shiftDR r) hlow
  have hbuf : shiftPins n exit (bufBit (navigate .shiftDR r).ctx.tdiBuf) = shiftPins n exit (vectorBit tdi) :=
    shiftPins_congr exit hbits
  refine ⟨?_, ?_, ?_, ?_⟩
  · rw [shiftFast_drivenPins n exit _ hlow, hbuf, navigate_pins, gotoState_drivenPins]
  · rw [shiftFast_actions n exit _ hlow, navigate_ctx, fastShiftActions_congr exit hbits, navigate_pins,
      gotoState_actions]
  · rw [hd.trace, sampledTdo_append, List.length_append, hsamples, navigate_pins, gotoState_samples]
  · rw [hd.tap, tapAfter_of_driven hpins, navigate_pins, gotoState_tapState, tap_after_shiftPins _ _ _ _ (.inl rfl)]

theorem Shifted.tap_exit {p q : Pins} {shift : TapState} {n : Nat} {tdi : List Byte} {acts : List PinAction}
    {samples : Nat} (h : Shifted p q shift n true tdi acts samples) :
    q.tapState = afterExit n shift (tapNext shift true) := by
  rw [h.tap, afterExit]
  by_cases hn : n = 0 <;> simp [hn]

/-- What the walk to the end state adds to a shift with exit. -/
theorem Shifted.navigate {p : Pins} {q : State} {shift : TapState} {n : Nat} {tdi : List Byte}
    {acts : List PinAction} {samples : Nat} (h : Shifted p q.pins shift n true tdi acts samples) (e : TapState) :
    drivenPins (navigate e q).pins.trace = drivenPins p.trace ++ navPins p.tapState shift ++
        shiftPins n true (vectorBit tdi) ++ navPins (afterExit n shift (tapNext shift true)) e ∧
      actions (navigate e q).pins.trace = actions p.trace ++
        fullPulses (navPins p.tapState shift) ++ acts ++
        fullPulses (navPins (afterExit n shift (tapNext shift true)) e) ∧
      (sampledTdo (navigate e q).pins.trace).length = (sampledTdo p.trace).length + tapDist p.tapState shift +
        samples + tapDist (afterExit n shift (tapNext shift true)) e := by
  rw [navigate_pins, gotoState_drivenPins, gotoState_actions, gotoState_samples, h.driven, h.called, h.samples,
    h.tap_exit]
  exact ⟨rfl, rfl, rfl⟩

theorem postScan_drivenPins (e : TapState) (s : State) :
    drivenPins (postScan e s).pins.trace =
      drivenPins s.pins.trace ++ postScanPins s.pins.tapState e s.ctx.pendingRuntest.toNat := by
  obtain ⟨more, hd, hpins, -⟩ := postScan_spec e s
  rw [hd.trace, drivenPins_append, hpins]

/-- What `PostScan` adds to a shift with exit. -/
theorem Shifted.postScan {p : Pins} {q : State} {shift : TapState} {n : Nat} {tdi : List Byte}
    {acts : List PinAction} {samples : Nat} (h : Shifted p q.pins shift n true tdi acts samples) (e : TapState) :
    drivenPins (postScan e q).pins.trace = drivenPins p.trace ++ navPins p.tapState shift ++
        shiftPins n true (vectorBit tdi) ++
        postScanPins (afterExit n shift (tapNext shift true)) e q.ctx.pendingRuntest.toNat ∧
      actions (postScan e q).pins.trace = actions p.trace ++
        fullPulses (navPins p.tapState shift) ++ acts ++
        postScanActions (afterExit n shift (tapNext shift true)) e q.ctx.pendingRuntest.toNat ∧
      (sampledTdo (postScan e q).pins.trace).length = (sampledTdo p.trace).length + tapDist p.tapState shift +
        samples + postScanSamples (afterExit n shift (tapNext shift true)) e q.ctx.pendingRuntest.toNat := by
  obtain ⟨hacts, hsamples⟩ := postScan_actions e q
  rw [postScan_drivenPins, hacts, hsamples, h.driven, h.called, h.samples, h.tap_exit]
  exact ⟨rfl, rfl, rfl⟩

theorem postScan_tapState (e : TapState) (s : State) :
    (postScan e s).pins.tapState = postScanState e s.ctx.pendingRuntest.toNat := by
  obtain ⟨_, -, -, htap, -⟩ := postScan_spec e s
  exact htap

theorem postScan_ctx (e : TapState) (s : State) : (postScan e s).ctx = { s.ctx with pendingRuntest := 0 } := by
  obtain ⟨_, -, -, -, hctx, -⟩ := postScan_spec e s
  exact hctx

theorem postScan_samePlatform (e : TapState) (s : State) : SamePlatform s (postScan e s) := by
  obtain ⟨_, -, -, -, -, hplat⟩ := postScan_spec e s
  exact hplat

/-- The answers to a scan stand in the trace where it sampled them, whatever is driven after it. -/
theorem scanAnswers_of_trace_append {s q t : State} {shift : TapState} {n : Nat} {more : List PinEvent}
    (htrace : t.pins.trace = q.pins.trace ++ more)
    (hlen : (sampledTdo q.pins.trace).length =
      (sampledTdo s.pins.trace).length + tapDist s.pins.tapState shift + n) :
    scanAnswers s t shift n = scanAnswers s q shift n := by
  rw [scanAnswers, scanAnswers, htrace, sampledTdo_append, List.drop_append_of_le_length (by omega),
    List.take_append_of_le_length (by rw [List.length_drop]; omega)]

/-- What a checked scan through `shift` leaves in `tdo_captured`. -/
theorem shiftChecked_navigate_captured {r : State} {shift : TapState} {n : Nat} (exit : Bool)
    (hbuf : r.ctx.tdoCaptured.length = r.cfg.cmpBytes) :
    Captured n (scanAnswers r (shiftChecked n exit (navigate shift r)) shift n) r.ctx.tdoCaptured
      (shiftChecked n exit (navigate shift r)).ctx.tdoCaptured := by
  have hcap := shiftChecked_captured (s := navigate shift r) n exit hbuf
  have hlen : (sampledTdo (navigate shift r).pins.trace).length =
      (sampledTdo r.pins.trace).length + tapDist r.pins.tapState shift := by rw [navigate_pins, gotoState_samples]
  rw [hlen] at hcap
  rwa [scanAnswers, List.take_of_length_le]
  rw [List.length_drop, shiftChecked_samples, hlen, Nat.add_sub_cancel_left]

theorem Captured.of_answers_eq {n : Nat} {bits bits' : List Bool} {old new : List Byte}
    (h : Captured n bits old new) (heq : bits' = bits) : Captured n bits' old new := heq ▸ h

/-- The compare reads the configuration and the three compare buffers only. -/
theorem comparesEqual_congr {s t : State} (n : Nat) (hcfg : t.cfg = s.cfg)
    (hcap : t.ctx.tdoCaptured = s.ctx.tdoCaptured) (hmask : t.ctx.tdoMask = s.ctx.tdoMask)
    (hexp : t.ctx.tdoExpected = s.ctx.tdoExpected) : ComparesEqual n t ↔ ComparesEqual n s := by
  rw [ComparesEqual, ComparesEqual, hcfg, hcap, hmask, hexp]

theorem comparesEqual_postScan (n : Nat) (e : TapState) (s : State) :
    ComparesEqual n (postScan e s) ↔ ComparesEqual n s := by
  apply comparesEqual_congr n (postScan_samePlatform e s).1 <;> rw [postScan_ctx]

theorem afterCompare_of_equal {n : Nat} {s : State} (f : State → State) (h : ComparesEqual n s) :
    afterCompare n f s = f s := if_pos ((matched_iff_comparesEqual n s).2 h)

theorem afterCompare_of_not_equal {n : Nat} {s : State} (f : State → State) (h : ¬ ComparesEqual n s) :
    afterCompare n f s = finish .fail s := if_neg fun hm => h ((matched_iff_comparesEqual n s).1 hm)

/-- An instruction scan within the maximum, its data whole (R180). -/
theorem irScan_of_whole {s : State} {n : Nat} {tdi : List Byte} (hn : n ≤ s.cfg.maxTdiBits)
    (hv : tdi.length = ceil8 n) :
    irScan n tdi s =
      .next (postScan s.ctx.endIrState (shiftChecked n true (navigate .shiftIR (readTdi n tdi s)))) :=
  (if_neg (Nat.not_lt.2 hn)).trans (withTdi_whole (Nat.not_lt.2 hv.ge))

/-- A scan without compare, from the operand to `PostScan`. -/
theorem scan_postScan {s : State} {n : Nat} {tdi : List Byte} {shift : TapState} (e : TapState) (hs : Inv s)
    (hshift : shift = .shiftDR ∨ shift = .shiftIR) (hn : n ≤ s.cfg.maxTdiBits) (hv : tdi.length = ceil8 n) :
    let q := shiftChecked n true (navigate shift (readTdi n tdi s))
    CheckedShift s.pins q.pins shift n true tdi ∧
      q.ctx.pendingRuntest = s.ctx.pendingRuntest ∧ SamePlatform s (postScan e q) ∧
      (postScan e q).ctx = { s.ctx with
        tdiBuf := (postScan e q).ctx.tdiBuf, tdoCaptured := (postScan e q).ctx.tdoCaptured, pendingRuntest := 0 } ∧
      VectorRead tdi s.ctx.tdiBuf (postScan e q).ctx.tdiBuf ∧
      Captured n (scanAnswers s (postScan e q) shift n) s.ctx.tdoCaptured (postScan e q).ctx.tdoCaptured := by
  intro q
  have hshifted : CheckedShift s.pins q.pins shift n true tdi :=
    shiftChecked_navigate_shifted (r := readTdi n tdi s) true hshift (bufBit_readTdi hs hv hn)
  have hcap : Captured n (scanAnswers s q shift n) s.ctx.tdoCaptured q.ctx.tdoCaptured :=
    shiftChecked_navigate_captured (r := readTdi n tdi s) true hs.tdoCapturedSize
  have hq : q.ctx = { (readTdi n tdi s).ctx with tdoCaptured := q.ctx.tdoCaptured } := shiftChecked_ctx_frame ..
  obtain ⟨hcfg, hsrc, hctl⟩ := shiftChecked_samePlatform n true (navigate shift (readTdi n tdi s))
  obtain ⟨hcfg', hsrc', hctl'⟩ := postScan_samePlatform e q
  obtain ⟨more, hd, -⟩ := postScan_spec e q
  have hans := scanAnswers_of_trace_append hd.trace hshifted.samples
  refine ⟨hshifted, by rw [hq]; rfl, ⟨hcfg'.trans hcfg, hsrc'.trans hsrc, hctl'.trans hctl⟩, ?_, ?_, ?_⟩
  · rw [postScan_ctx, hq]; rfl
  · rw [postScan_ctx, hq]; exact readTdi_vectorRead hs hv
  · rw [hans, postScan_ctx]; exact hcap

/-- Settles O30: the scan through ShiftIR, whichever of the two opcodes gives its length. -/
theorem instructionScanShiftsThroughShiftIR : Obligations.InstructionScanShiftsThroughShiftIR := by
  unfold Obligations.InstructionScanShiftsThroughShiftIR
  intro s i n tdi hs hi hn hv
  obtain ⟨hshifted, hpend, hplat, hctx, hvec, hcap⟩ :=
    scan_postScan (shift := .shiftIR) s.ctx.endIrState hs (.inr rfl) hn hv
  obtain ⟨hdriven, hacts, hsamples⟩ := hshifted.postScan s.ctx.endIrState
  have htap := postScan_tapState s.ctx.endIrState (shiftChecked n true (navigate .shiftIR (readTdi n tdi s)))
  rw [hpend] at hdriven hacts hsamples htap
  exact ⟨_, (exec_irScan hi).trans (irScan_of_whole hn hv), hdriven, hacts, hsamples, htap, hplat, hctx, hvec, hcap⟩

theorem withTdi_scanBits {s : State} {tdi : List Byte} {act : State → StepResult}
    (hv : tdi.length = ceil8 (scanBits s)) :
    withTdi s.ctx.sdrSize.toNat tdi act s = act (readTdi (scanBits s) tdi s) := withTdi_whole (Nat.not_lt.2 hv.ge)

theorem exec_xsdr_of_whole {s : State} {tdi : List Byte} (hv : tdi.length = ceil8 (scanBits s)) :
    exec (.xsdr tdi) s = .next (postScan s.ctx.endDrState
      (shiftChecked (scanBits s) true (navigate .shiftDR (readTdi (scanBits s) tdi s)))) := by
  rw [exec, execXsdr, withTdi_scanBits hv]; rfl

/-- Settles O32: the same scan through ShiftDR, at the current width. -/
theorem xsdrShiftsThroughShiftDRWithoutCompare : Obligations.XsdrShiftsThroughShiftDRWithoutCompare := by
  unfold Obligations.XsdrShiftsThroughShiftDRWithoutCompare
  intro s tdi hs hv
  obtain ⟨hshifted, hpend, hplat, hctx, hvec, hcap⟩ :=
    scan_postScan (n := scanBits s) (shift := .shiftDR) s.ctx.endDrState hs (.inl rfl) hs.sdrSizeFits hv
  obtain ⟨hdriven, hacts, hsamples⟩ := hshifted.postScan s.ctx.endDrState
  have htap := postScan_tapState s.ctx.endDrState
    (shiftChecked (scanBits s) true (navigate .shiftDR (readTdi (scanBits s) tdi s)))
  rw [hpend] at hdriven hacts hsamples htap
  exact ⟨_, exec_xsdr_of_whole hv, hdriven, hacts, hsamples, htap, hplat, hctx, hvec, hcap⟩

/-- The state a compared scan acts on: both operands read at the current width. -/
def operandsRead (tdi tdo : List Byte) (s : State) : State :=
  readExpected (scanBits s) tdo (readTdi (scanBits s) tdi s)

theorem withTdiAndExpected_scanBits {s : State} {tdi tdo : List Byte} {act : State → StepResult}
    (hv : tdi.length = ceil8 (scanBits s)) (he : tdo.length = ceil8 (scanBits s)) :
    withTdiAndExpected tdi tdo act s = act (operandsRead tdi tdo s) :=
  withTdiAndExpected_whole fun h => h.elim hv.not_lt he.not_lt

/-- The state after the shift of a compared scan, before its compare. -/
def comparedScan (exit : Bool) (tdi tdo : List Byte) (s : State) : State :=
  shiftChecked (scanBits s) exit (navigate .shiftDR (operandsRead tdi tdo s))

/-- A compared scan up to its compare: what the four opcodes that compare have in common (R186, R206 to R209). -/
structure ComparedScan (exit : Bool) (tdi tdo : List Byte) (s q : State) : Prop where
  shifted : CheckedShift s.pins q.pins .shiftDR (scanBits s) exit tdi
  cfg : q.cfg = s.cfg
  source : q.source = s.source
  ctl : q.ctl = s.ctl
  ctx : q.ctx = { s.ctx with
    tdiBuf := q.ctx.tdiBuf, tdoExpected := q.ctx.tdoExpected, tdoCaptured := q.ctx.tdoCaptured }
  tdi : VectorRead tdi s.ctx.tdiBuf q.ctx.tdiBuf
  expected : VectorRead tdo s.ctx.tdoExpected q.ctx.tdoExpected
  captured : Captured (scanBits s) (scanAnswers s q .shiftDR (scanBits s)) s.ctx.tdoCaptured q.ctx.tdoCaptured

theorem comparedScan_spec {s : State} {tdi tdo : List Byte} (exit : Bool) (hs : Inv s)
    (hv : tdi.length = ceil8 (scanBits s)) (he : tdo.length = ceil8 (scanBits s)) :
    ComparedScan exit tdi tdo s (comparedScan exit tdi tdo s) := by
  obtain ⟨hcfg, hsrc, hctl⟩ :=
    shiftChecked_samePlatform (scanBits s) exit (navigate .shiftDR (operandsRead tdi tdo s))
  have hctx : (comparedScan exit tdi tdo s).ctx = { (operandsRead tdi tdo s).ctx with
      tdoCaptured := (comparedScan exit tdi tdo s).ctx.tdoCaptured } := shiftChecked_ctx_frame ..
  exact {
    shifted := shiftChecked_navigate_shifted (r := operandsRead tdi tdo s) exit (.inl rfl)
      (bufBit_readTdi hs hv hs.sdrSizeFits)
    cfg := hcfg
    source := hsrc
    ctl := hctl
    ctx := by rw [hctx]; rfl
    tdi := by rw [hctx]; exact readTdi_vectorRead hs hv
    expected := by rw [hctx]; exact fillVector_vectorRead he hs.tdoExpectedSize
    captured := shiftChecked_navigate_captured (r := operandsRead tdi tdo s) exit hs.tdoCapturedSize }

theorem exec_xsdrtdo_of_whole {s : State} {tdi tdo : List Byte} (hv : tdi.length = ceil8 (scanBits s))
    (he : tdo.length = ceil8 (scanBits s)) :
    exec (.xsdrtdo tdi tdo) s =
      .next (afterCompare (scanBits s) (postScan s.ctx.endDrState) (comparedScan true tdi tdo s)) := by
  rw [exec, execXsdrtdo, withTdiAndExpected_scanBits hv he]; rfl

/-- Settles O33: the compare is made on the state after the whole shift, which `PostScan` or `FAIL` leaves its
buffers. -/
theorem xsdrtdoComparesAfterTheWholeScan : Obligations.XsdrtdoComparesAfterTheWholeScan := by
  unfold Obligations.XsdrtdoComparesAfterTheWholeScan
  intro s tdi tdo hs hv he
  have h := comparedScan_spec true hs hv he
  have hexec := exec_xsdrtdo_of_whole hv he
  generalize comparedScan true tdi tdo s = q at h hexec
  by_cases hm : ComparesEqual (scanBits s) q
  · rw [afterCompare_of_equal _ hm] at hexec
    obtain ⟨hcfg, hsrc, hctl⟩ := postScan_samePlatform s.ctx.endDrState q
    obtain ⟨more, hd, -⟩ := postScan_spec s.ctx.endDrState q
    obtain ⟨hdriven, hacts, hsamples⟩ := h.shifted.postScan s.ctx.endDrState
    have hpend : q.ctx.pendingRuntest = s.ctx.pendingRuntest := by rw [h.ctx]
    have htap := postScan_tapState s.ctx.endDrState q
    rw [hpend] at hdriven hacts hsamples htap
    have hans := scanAnswers_of_trace_append hd.trace h.shifted.samples
    refine ⟨_, hexec, hcfg.trans h.cfg, hsrc.trans h.source, ?_, ?_, ?_, fun _ => ?_, fun hne => ?_⟩
    · rw [postScan_ctx]; exact h.tdi
    · rw [postScan_ctx]; exact h.expected
    · rw [hans, postScan_ctx]; exact h.captured
    · exact ⟨hctl.trans h.ctl, htap, by rw [postScan_ctx, h.ctx], hdriven, hacts, hsamples⟩
    · exact absurd ((comparesEqual_postScan _ _ _).2 hm) hne
  · rw [afterCompare_of_not_equal _ hm] at hexec
    refine ⟨_, hexec, h.cfg, h.source, h.tdi, h.expected, h.captured, fun heq => absurd heq hm, fun _ => ?_⟩
    exact ⟨by rw [finish_ctl, h.ctl], h.shifted.tap_exit, h.ctx, h.shifted.driven, h.shifted.called,
      h.shifted.samples⟩

theorem exec_xsdrb_of_whole {s : State} {tdi : List Byte} (hv : tdi.length = ceil8 (scanBits s)) :
    exec (.xsdrb tdi) s =
      .next (shiftFast (scanBits s) false (navigate .shiftDR (readTdi (scanBits s) tdi s))) := by
  rw [exec, execXsdrb, withTdi_scanBits hv]; rfl

/-- A fast scan from the operand to its last bit. -/
theorem fastScan_shifted {s : State} {tdi : List Byte} (exit : Bool) (hs : Inv s)
    (hv : tdi.length = ceil8 (scanBits s)) :
    FastShift s.pins (shiftFast (scanBits s) exit (navigate .shiftDR (readTdi (scanBits s) tdi s))).pins .shiftDR
      (scanBits s) exit tdi :=
  shiftFast_navigate_shifted (r := readTdi (scanBits s) tdi s) exit (fun h => hs.shiftHold (.inl h))
    (bufBit_readTdi hs hv hs.sdrSizeFits)

/-- An instruction that leaves the TAP in ShiftDR leaves TMS at 0 (R23, R204). -/
theorem exec_hold_low {i : Instr} {s t : State} (hs : Inv s) (h : exec i s = .next t)
    (htap : t.pins.tapState = .shiftDR) : t.pins.tmsHold = false := by
  obtain ⟨more, hd⟩ := (exec_quiet h).drives
  exact hd.shift_hold hs.shiftHold (.inl htap)

/-- Settles O34: the fast scan without exit stays in ShiftDR. -/
theorem xsdrbEntersShiftDRAndStays : Obligations.XsdrbEntersShiftDRAndStays := by
  unfold Obligations.XsdrbEntersShiftDRAndStays
  intro s tdi hs hv
  have h := fastScan_shifted false hs hv
  have hexec := exec_xsdrb_of_whole hv
  exact ⟨_, hexec, h.driven, h.called, h.samples, h.tap, exec_hold_low hs hexec h.tap, ⟨rfl, rfl, rfl⟩, rfl,
    readTdi_vectorRead hs hv⟩

theorem navPins_self (a : TapState) : navPins a a = [] := by rw [navPins, tapDist_self]; rfl

theorem navigate_self {s : State} {u : TapState} (h : s.pins.tapState = u) : navigate u s = s := by
  subst h; rw [navigate, gotoState_self]

theorem inShiftDR_of_shiftDR {f : State → State} {s : State} (h : s.pins.tapState = .shiftDR) :
    inShiftDR f s = f s := if_pos h

theorem inShiftDR_of_ne {f : State → State} {s : State} (h : s.pins.tapState ≠ .shiftDR) :
    inShiftDR f s = raiseFault .quickOutsideShift s := if_neg h

/-- In ShiftDR a continue is a begin whose walk has no pulse (R200, R201). -/
theorem exec_xsdrc_of_shiftDR {s : State} {tdi : List Byte} (hv : tdi.length = ceil8 (scanBits s))
    (htap : s.pins.tapState = .shiftDR) : exec (.xsdrc tdi) s = exec (.xsdrb tdi) s := by
  have hr : (readTdi (scanBits s) tdi s).pins.tapState = .shiftDR := htap
  rw [exec_xsdrb_of_whole hv, navigate_self hr, exec, execXsdrc, withTdi_scanBits hv, inShiftDR_of_shiftDR hr]
  rfl

/-- Settles O35: in ShiftDR, XSDRB with nowhere to go. -/
theorem xsdrcContinuesInShiftDR : Obligations.XsdrcContinuesInShiftDR := by
  unfold Obligations.XsdrcContinuesInShiftDR
  intro s tdi hs hv htap
  have h := xsdrbEntersShiftDRAndStays s tdi hs hv
  simpa only [exec_xsdrc_of_shiftDR hv htap, htap, navPins_self, tapDist_self, fullPulses_nil, List.append_nil,
    Nat.add_zero] using h

theorem exec_xsdre_of_shiftDR {s : State} {tdi : List Byte} (hv : tdi.length = ceil8 (scanBits s))
    (htap : s.pins.tapState = .shiftDR) :
    exec (.xsdre tdi) s = .next (navigate s.ctx.endDrState
      (shiftFast (scanBits s) true (navigate .shiftDR (readTdi (scanBits s) tdi s)))) := by
  have hr : (readTdi (scanBits s) tdi s).pins.tapState = .shiftDR := htap
  rw [navigate_self hr, exec, execXsdre, withTdi_scanBits hv, inShiftDR_of_shiftDR hr]
  rfl

/-- Settles O36: the fast scan with exit, its walk empty, then the walk to the end state. -/
theorem xsdreEndsTheQuickScan : Obligations.XsdreEndsTheQuickScan := by
  unfold Obligations.XsdreEndsTheQuickScan
  intro s tdi hs hv htap
  obtain ⟨hdriven, hacts, hsamples⟩ := (fastScan_shifted true hs hv).navigate s.ctx.endDrState
  simp only [htap, navPins_self, tapDist_self, fullPulses_nil, List.append_nil, Nat.add_zero]
    at hdriven hacts hsamples
  exact ⟨_, exec_xsdre_of_shiftDR hv htap, hdriven, hacts, hsamples, gotoState_tapState .., ⟨rfl, rfl, rfl⟩, rfl,
    readTdi_vectorRead hs hv⟩

theorem exec_xsdrtdob_of_whole {s : State} {tdi tdo : List Byte} (hv : tdi.length = ceil8 (scanBits s))
    (he : tdo.length = ceil8 (scanBits s)) :
    exec (.xsdrtdob tdi tdo) s = .next (afterCompare (scanBits s) id (comparedScan false tdi tdo s)) := by
  rw [exec, execXsdrtdob, withTdiAndExpected_scanBits hv he]; rfl

/-- Settles O37: the compared scan without exit, then the compare alone. -/
theorem xsdrtdobEntersShiftDRAndCompares : Obligations.XsdrtdobEntersShiftDRAndCompares := by
  unfold Obligations.XsdrtdobEntersShiftDRAndCompares
  intro s tdi tdo hs hv he
  have h := comparedScan_spec false hs hv he
  have hexec := exec_xsdrtdob_of_whole hv he
  generalize comparedScan false tdi tdo s = q at h hexec
  by_cases hm : ComparesEqual (scanBits s) q
  · rw [afterCompare_of_equal _ hm] at hexec
    exact ⟨q, hexec, h.shifted.driven, h.shifted.called, h.shifted.samples, h.shifted.tap,
      exec_hold_low hs hexec h.shifted.tap, h.cfg, h.source, h.ctx, h.tdi, h.expected, h.captured,
      fun _ => h.ctl, fun hne => absurd hm hne⟩
  · rw [afterCompare_of_not_equal _ hm] at hexec
    exact ⟨_, hexec, h.shifted.driven, h.shifted.called, h.shifted.samples, h.shifted.tap,
      exec_hold_low hs hexec h.shifted.tap, h.cfg, h.source, h.ctx, h.tdi, h.expected, h.captured,
      fun heq => absurd heq hm, fun _ => by rw [finish_ctl, h.ctl]⟩

theorem exec_xsdrtdoc_of_shiftDR {s : State} {tdi tdo : List Byte} (hv : tdi.length = ceil8 (scanBits s))
    (he : tdo.length = ceil8 (scanBits s)) (htap : s.pins.tapState = .shiftDR) :
    exec (.xsdrtdoc tdi tdo) s = exec (.xsdrtdob tdi tdo) s := by
  have hr : (operandsRead tdi tdo s).pins.tapState = .shiftDR := htap
  rw [exec_xsdrtdob_of_whole hv he, comparedScan, navigate_self hr, exec, execXsdrtdoc,
    withTdiAndExpected_scanBits hv he, inShiftDR_of_shiftDR hr]
  rfl

/-- Settles O38: in ShiftDR, XSDRTDOB with nowhere to go. -/
theorem xsdrtdocContinuesAndCompares : Obligations.XsdrtdocContinuesAndCompares := by
  unfold Obligations.XsdrtdocContinuesAndCompares
  intro s tdi tdo hs hv he htap
  have h := xsdrtdobEntersShiftDRAndCompares s tdi tdo hs hv he
  simpa only [exec_xsdrtdoc_of_shiftDR hv he htap, htap, navPins_self, tapDist_self, fullPulses_nil,
    List.append_nil, Nat.add_zero] using h

theorem exec_xsdrtdoe_of_shiftDR {s : State} {tdi tdo : List Byte} (hv : tdi.length = ceil8 (scanBits s))
    (he : tdo.length = ceil8 (scanBits s)) (htap : s.pins.tapState = .shiftDR) :
    exec (.xsdrtdoe tdi tdo) s =
      .next (afterCompare (scanBits s) (navigate s.ctx.endDrState) (comparedScan true tdi tdo s)) := by
  have hr : (operandsRead tdi tdo s).pins.tapState = .shiftDR := htap
  rw [comparedScan, navigate_self hr, exec, execXsdrtdoe, withTdiAndExpected_scanBits hv he, inShiftDR_of_shiftDR hr]
  rfl

/-- Settles O39: the compared scan with exit, its walk empty, then the walk to the end state or `FAIL` in place. -/
theorem xsdrtdoeEndsTheQuickScanAndCompares : Obligations.XsdrtdoeEndsTheQuickScanAndCompares := by
  unfold Obligations.XsdrtdoeEndsTheQuickScanAndCompares
  intro s tdi tdo hs hv he htap
  have h := comparedScan_spec true hs hv he
  have hexec := exec_xsdrtdoe_of_shiftDR hv he htap
  generalize comparedScan true tdi tdo s = q at h hexec
  by_cases hm : ComparesEqual (scanBits s) q
  · rw [afterCompare_of_equal _ hm] at hexec
    obtain ⟨hdriven, hacts, hsamples⟩ := h.shifted.navigate s.ctx.endDrState
    simp only [htap, navPins_self, tapDist_self, fullPulses_nil, List.append_nil, Nat.add_zero]
      at hdriven hacts hsamples
    obtain ⟨more, -, hd, -⟩ := gotoState_drives s.ctx.endDrState q.pins
    have hans := scanAnswers_of_trace_append (t := navigate s.ctx.endDrState q) hd.trace h.shifted.samples
    exact ⟨_, hexec, h.cfg, h.source, h.ctx, h.tdi, h.expected, h.captured.of_answers_eq hans,
      fun _ => ⟨h.ctl, gotoState_tapState .., hdriven, hacts, hsamples⟩, fun hne => absurd hm hne⟩
  · rw [afterCompare_of_not_equal _ hm] at hexec
    obtain ⟨hdriven, hacts, hsamples, -⟩ := h.shifted
    simp only [htap, navPins_self, tapDist_self, fullPulses_nil, List.append_nil, Nat.add_zero]
      at hdriven hacts hsamples
    exact ⟨_, hexec, h.cfg, h.source, h.ctx, h.tdi, h.expected, h.captured, fun heq => absurd heq hm,
      fun _ => ⟨by rw [finish_ctl, h.ctl], h.shifted.tap_exit, hdriven, hacts, hsamples⟩⟩

/-- A quick continue or end with data alone, outside ShiftDR (R204). -/
theorem exec_quick_outside {s : State} {i : Instr} {tdi : List Byte} (hi : i = .xsdrc tdi ∨ i = .xsdre tdi)
    (hv : tdi.length = ceil8 (scanBits s)) (htap : s.pins.tapState ≠ .shiftDR) :
    exec i s = .next (raiseFault .quickOutsideShift (readTdi (scanBits s) tdi s)) := by
  have hr : (readTdi (scanBits s) tdi s).pins.tapState ≠ .shiftDR := htap
  obtain rfl | rfl := hi
  · rw [exec, execXsdrc, withTdi_scanBits hv, inShiftDR_of_ne hr]
  · rw [exec, execXsdre, withTdi_scanBits hv, inShiftDR_of_ne hr]

/-- A quick continue or end that compares, outside ShiftDR (R204). -/
theorem exec_quickCompare_outside {s : State} {i : Instr} {tdi tdo : List Byte}
    (hi : i = .xsdrtdoc tdi tdo ∨ i = .xsdrtdoe tdi tdo) (hv : tdi.length = ceil8 (scanBits s))
    (he : tdo.length = ceil8 (scanBits s)) (htap : s.pins.tapState ≠ .shiftDR) :
    exec i s = .next (raiseFault .quickOutsideShift (operandsRead tdi tdo s)) := by
  have hr : (operandsRead tdi tdo s).pins.tapState ≠ .shiftDR := htap
  obtain rfl | rfl := hi
  · rw [exec, execXsdrtdoc, withTdiAndExpected_scanBits hv he, inShiftDR_of_ne hr]
  · rw [exec, execXsdrtdoe, withTdiAndExpected_scanBits hv he, inShiftDR_of_ne hr]

/-- An instruction that needs ShiftDR is one of the four, its operands whole where it is well formed. -/
theorem needsShiftDR_cases {p : Params} {sdr : Word32} {i : Instr} (hn : needsShiftDR i = true)
    (hw : i.wellFormed p sdr = true) :
    (∃ tdi, (i = .xsdrc tdi ∨ i = .xsdre tdi) ∧ tdi.length = ceil8 sdr.toNat) ∨
      ∃ tdi tdo, (i = .xsdrtdoc tdi tdo ∨ i = .xsdrtdoe tdi tdo) ∧ tdi.length = ceil8 sdr.toNat ∧
        tdo.length = ceil8 sdr.toNat := by
  cases i <;> simp only [Instr.wellFormed, Bool.and_eq_true, beq_iff_eq] at hw
  case xsdrc tdi => exact .inl ⟨tdi, .inl rfl, hw⟩
  case xsdre tdi => exact .inl ⟨tdi, .inr rfl, hw⟩
  case xsdrtdoc tdi tdo => exact .inr ⟨tdi, tdo, .inl rfl, hw⟩
  case xsdrtdoe tdi tdo => exact .inr ⟨tdi, tdo, .inr rfl, hw⟩
  all_goals cases hn

/-- Settles O40: with its operands whole the instruction meets the ShiftDR test and fails it. -/
theorem quickContinueOrEndOutsideShiftDRFaults : Obligations.QuickContinueOrEndOutsideShiftDRFaults := by
  unfold Obligations.QuickContinueOrEndOutsideShiftDRFaults
  refine ⟨fun s i hn hw htap => ?_, fun s i tdi hi hv hbuf htap => ?_,
    fun s i tdi tdo hi hv he hbuf hexp htap => ?_⟩
  · obtain ⟨tdi, hi, hv⟩ | ⟨tdi, tdo, hi, hv, he⟩ := needsShiftDR_cases hn hw
    · exact ⟨_, exec_quick_outside hi hv htap, rfl, rfl, rfl, rfl, rfl⟩
    · exact ⟨_, exec_quickCompare_outside hi hv he htap, rfl, rfl, rfl, rfl, rfl⟩
  · exact ⟨_, fillVector_vectorRead hv hbuf, exec_quick_outside hi hv htap⟩
  · exact ⟨_, _, fillVector_vectorRead hv hbuf, fillVector_vectorRead he hexp,
      exec_quickCompare_outside hi hv he htap⟩

end Sys2Proof.Machine

/-!
O50 (40_tap.md R101, 70_reset_and_hazards.md R275): of the pin operations only the fast shift calls the fast pulse, and
every instruction that runs it is in ShiftDR with TMS held at 0 by then.
-/

namespace Sys2Proof.Machine

/-- Driven from the TAP state `a`, every fast pulse of `more` comes in ShiftDR with TMS at 0. -/
def FastInShiftDR (a : TapState) (more : List PinEvent) : Prop :=
  ∀ (before later : List PinEvent) (tdi tms : Bool), more = before ++ .fast tdi tms :: later →
    tms = false ∧ tapAfter a before = .shiftDR

theorem fastInShiftDR_of_no_fast {more : List PinEvent} (a : TapState) (h : ∀ tdi tms, .fast tdi tms ∉ more) :
    FastInShiftDR a more := by
  intro before later tdi tms heq
  exact absurd (heq ▸ List.mem_append_right before List.mem_cons_self) (h tdi tms)

theorem FastInShiftDR.append {a : TapState} {x y : List PinEvent} (hx : FastInShiftDR a x)
    (hy : FastInShiftDR (tapAfter a x) y) : FastInShiftDR a (x ++ y) := by
  intro before later tdi tms heq
  obtain ⟨mid, rfl, hmid⟩ | ⟨mid, rfl, hmid⟩ := List.append_eq_append_iff.1 heq
  · rw [tapAfter_append]; exact hy mid later tdi tms hmid
  · cases mid with
    | nil => rw [List.append_nil] at hy; exact hy [] later tdi tms hmid.symm
    | cons e mid => cases hmid; exact hx before mid tdi tms rfl

/-- Fast pulses with TMS at 0 stay in ShiftDR. -/
theorem tapAfter_fast_low {l : List PinEvent} (h : ∀ e ∈ l, ∃ tdi, e = .fast tdi false) :
    tapAfter .shiftDR l = .shiftDR := by
  induction l with
  | nil => rfl
  | cons e l ih =>
    obtain ⟨tdi, rfl⟩ := h e List.mem_cons_self
    exact ih fun e he => h e (List.mem_cons_of_mem _ he)

theorem fastInShiftDR_of_fast_low {l : List PinEvent} (h : ∀ e ∈ l, ∃ tdi, e = .fast tdi false) :
    FastInShiftDR .shiftDR l := by
  rintro before later tdi tms rfl
  obtain ⟨_, he⟩ := h (.fast tdi tms) (List.mem_append_right _ List.mem_cons_self)
  cases he
  exact ⟨rfl, tapAfter_fast_low fun e he => h e (List.mem_append_left _ he)⟩

/-- Where every transaction sampled a bit, none was a fast pulse. -/
theorem no_fast_of_all_sampled {l : List PinEvent} (h : (sampledTdo l).length = l.length) (tdi tms : Bool) :
    .fast tdi tms ∉ l := by
  intro hmem
  have hact : PinAction.fast tdi tms ∈ actions l := List.mem_map_of_mem (f := actionBy) hmem
  rw [actions_of_all_sampled h] at hact
  obtain ⟨_, -, he⟩ := List.mem_map.1 hact
  cases he

/-- `q` is reached from `p` with every fast pulse in ShiftDR and TMS at 0. -/
def FastSafe (p q : Pins) : Prop := ∃ more, Drives p q more ∧ FastInShiftDR p.tapState more

theorem FastSafe.refl (p : Pins) : FastSafe p p :=
  ⟨[], .refl p, fastInShiftDR_of_no_fast _ fun _ _ => List.not_mem_nil⟩

theorem FastSafe.trans {p q r : Pins} (h : FastSafe p q) (k : FastSafe q r) : FastSafe p r := by
  obtain ⟨x, hx, hfx⟩ := h
  obtain ⟨y, hy, hfy⟩ := k
  exact ⟨_, hx.trans hy, hfx.append (hx.tap ▸ hfy)⟩

theorem Drives.fastSafe {p q : Pins} {more : List PinEvent} (h : Drives p q more)
    (hno : ∀ tdi tms, .fast tdi tms ∉ more) : FastSafe p q := ⟨more, h, fastInShiftDR_of_no_fast _ hno⟩

theorem gotoState_fastSafe (u : TapState) (p : Pins) : FastSafe p (gotoState u p) := by
  obtain ⟨more, -, hd, -, hs, hl⟩ := gotoState_drives u p
  exact hd.fastSafe (no_fast_of_all_sampled (hs.trans hl.symm))

theorem shiftChecked_fastSafe (n : Nat) (exit : Bool) (s : State) : FastSafe s.pins (shiftChecked n exit s).pins := by
  obtain ⟨more, hd, -, hs, hl, -⟩ := shiftChecked_spec n exit s
  exact hd.fastSafe (no_fast_of_all_sampled (hs.trans hl.symm))

theorem runTestCycles_fastSafe (n : Nat) (p : Pins) : FastSafe p (runTestCycles n p) := by
  obtain ⟨tdo, -, hd⟩ := runTestCycles_spec n p
  exact hd.fastSafe fun _ _ hmem => by simp at hmem

theorem postScan_fastSafe (e : TapState) (s : State) : FastSafe s.pins (postScan e s).pins := by
  by_cases h : s.ctx.pendingRuntest = 0
  · rw [postScan_idle e s h]; exact gotoState_fastSafe e s.pins
  · rw [postScan_pending e s h]; exact (gotoState_fastSafe .runTest s.pins).trans (runTestCycles_fastSafe ..)

/-- The fast shift, where it is run: fast pulses that stay in ShiftDR, then a full one. -/
theorem shiftFast_fastSafe {s : State} (n : Nat) (exit : Bool) (htap : s.pins.tapState = .shiftDR)
    (hhold : s.pins.tmsHold = false) : FastSafe s.pins (shiftFast n exit s).pins := by
  by_cases hn : n = 0
  · subst hn; exact .refl _
  · obtain ⟨more, hd⟩ := shiftFast_drives n exit s
    obtain ⟨htrace, -⟩ := shiftFast_events n exit s hn
    rw [hd.trace, List.append_assoc, hhold, List.append_cancel_left_eq] at htrace
    refine ⟨more, hd, ?_⟩
    rw [htrace, htap]
    refine FastInShiftDR.append (fastInShiftDR_of_fast_low fun e he => ?_) (fastInShiftDR_of_no_fast _ ?_)
    · obtain ⟨j, -, rfl⟩ := List.mem_map.1 he
      exact ⟨_, rfl⟩
    · exact fun _ _ hmem => by simp at hmem

/-- An instruction that meets a missing operand byte has driven no pin; else its action runs. -/
theorem withTdi_fastSafe {n : Nat} {v : List Byte} {act : State → StepResult} {s t : State}
    (h : withTdi n v act s = .next t)
    (hact : ∀ r, r.pins = s.pins → act r = .next t → FastSafe s.pins t.pins) : FastSafe s.pins t.pins := by
  obtain ⟨-, h⟩ | ⟨-, -, rfl⟩ := whenWhole_next h
  · exact hact (readTdi n v s) rfl h
  · exact .refl _

theorem withTdiAndExpected_fastSafe {v e : List Byte} {act : State → StepResult} {s t : State}
    (h : withTdiAndExpected v e act s = .next t)
    (hact : ∀ r, r.pins = s.pins → act r = .next t → FastSafe s.pins t.pins) : FastSafe s.pins t.pins := by
  refine withTdi_fastSafe h fun r hr h => ?_
  obtain ⟨-, h⟩ | ⟨-, -, rfl⟩ := whenWhole_next h
  · exact hact (readExpected _ e r) hr h
  · rw [finish_pins, readExpected_pins, hr]; exact .refl _

theorem afterCompare_fastSafe (n : Nat) {f : State → State} {s : State} (h : FastSafe s.pins (f s).pins) :
    FastSafe s.pins (afterCompare n f s).pins := by
  unfold afterCompare
  split
  · exact h
  · exact .refl _

theorem inShiftDR_fastSafe {f : State → State} {s : State}
    (h : s.pins.tapState = .shiftDR → FastSafe s.pins (f s).pins) : FastSafe s.pins (inShiftDR f s).pins := by
  unfold inShiftDR
  split
  · exact h ‹_›
  · exact .refl _

/-- The walk of a scan and its checked shift. -/
theorem checkedScan_fastSafe (n : Nat) (exit : Bool) (shift : TapState) (r : State) :
    FastSafe r.pins (shiftChecked n exit (navigate shift r)).pins :=
  (gotoState_fastSafe shift r.pins).trans (shiftChecked_fastSafe n exit (navigate shift r))

/-- The instruction scan drives full pulses only. -/
theorem irScan_fastSafe {len : Nat} {tdi : List Byte} {s t : State} (h : irScan len tdi s = .next t) :
    FastSafe s.pins t.pins := by
  unfold irScan at h
  split at h
  · cases h; exact .refl _
  · refine withTdi_fastSafe h fun r hr h => ?_
    cases h
    exact hr ▸ (checkedScan_fastSafe _ _ _ r).trans (postScan_fastSafe ..)

/-- Every instruction drives its fast pulses in ShiftDR with TMS at 0. -/
theorem exec_fastSafe {i : Instr} {s t : State} (hlow : s.pins.tapState = .shiftDR → s.pins.tmsHold = false)
    (h : exec i s = .next t) : FastSafe s.pins t.pins := by
  cases i <;> simp only [exec] at h
  case xcomplete | xruntest | xrepeat | xendir | xenddr => cases h; exact .refl _
  case xtdomask =>
    obtain ⟨-, h⟩ | ⟨-, -, rfl⟩ := whenWhole_next h
    · cases h; exact .refl _
    · exact .refl _
  case xsdrsize => unfold execXsdrsize at h; split at h <;> cases h <;> exact .refl _
  case xstate =>
    unfold execXstate at h
    split at h <;> cases h
    · exact gotoState_fastSafe _ _
    · exact .refl _
  case xsir | xsir2 => exact irScan_fastSafe h
  case xsdr =>
    refine withTdi_fastSafe h fun r hr h => ?_
    cases h
    exact hr ▸ (checkedScan_fastSafe _ _ _ r).trans (postScan_fastSafe ..)
  case xsdrtdo =>
    refine withTdiAndExpected_fastSafe h fun r hr h => ?_
    cases h
    exact hr ▸ (checkedScan_fastSafe _ _ _ r).trans (afterCompare_fastSafe _ (postScan_fastSafe ..))
  case xsdrtdob =>
    refine withTdiAndExpected_fastSafe h fun r hr h => ?_
    cases h
    exact hr ▸ (checkedScan_fastSafe _ _ _ r).trans (afterCompare_fastSafe _ (.refl _))
  case xsdrtdoc =>
    refine withTdiAndExpected_fastSafe h fun r hr h => ?_
    cases h
    exact hr ▸ inShiftDR_fastSafe fun _ =>
      (shiftChecked_fastSafe _ _ r).trans (afterCompare_fastSafe _ (.refl _))
  case xsdrtdoe =>
    refine withTdiAndExpected_fastSafe h fun r hr h => ?_
    cases h
    exact hr ▸ inShiftDR_fastSafe fun _ =>
      (shiftChecked_fastSafe _ _ r).trans (afterCompare_fastSafe _ (gotoState_fastSafe ..))
  case xsdrb =>
    refine withTdi_fastSafe h fun r hr h => ?_
    cases h
    have hlow' : (navigate .shiftDR r).pins.tmsHold = false := gotoState_hold .shiftDR r.pins (.inl rfl) (hr ▸ hlow)
    exact hr ▸ (gotoState_fastSafe .shiftDR r.pins).trans
      (shiftFast_fastSafe (s := navigate .shiftDR r) _ _ (gotoState_tapState ..) hlow')
  case xsdrc =>
    refine withTdi_fastSafe h fun r hr h => ?_
    cases h
    rw [← hr] at hlow ⊢
    exact inShiftDR_fastSafe fun htap => shiftFast_fastSafe _ _ htap (hlow htap)
  case xsdre =>
    refine withTdi_fastSafe h fun r hr h => ?_
    cases h
    rw [← hr] at hlow ⊢
    exact inShiftDR_fastSafe fun htap => (shiftFast_fastSafe _ _ htap (hlow htap)).trans (gotoState_fastSafe ..)

/-- Settles O50: the invariant holds TMS at 0 in ShiftDR, and what an instruction adds to the trace is fast safe. -/
theorem fastPulsesAreDrivenOnlyInShiftDRWithTmsLow : Obligations.FastPulsesAreDrivenOnlyInShiftDRWithTmsLow := by
  unfold Obligations.FastPulsesAreDrivenOnlyInShiftDRWithTmsLow
  intro s t i hs h before later tdi tms htrace
  obtain ⟨more, hd, hsafe⟩ := exec_fastSafe (fun htap => hs.shiftHold (.inl htap)) h
  rw [hd.trace, List.append_assoc, List.append_assoc, List.append_cancel_left_eq] at htrace
  exact hsafe before later tdi tms htrace

end Sys2Proof.Machine
